-- ==== Sys2Proof/Word.lean ====
section
/-! DEFINITION. The words of DSMCODEC and the named values of its small fields (00_scope.md R9, R10;
30_encoding.md R82). -/

namespace Sys2Proof

/-- A byte of a packet, a window, a ring or the manufacturer id. -/
abbrev Byte := BitVec 8

/-- A 32-bit command word or response data word (30_encoding.md R80, R89). -/
abbrev Word := BitVec 32

/-- The four byte windows (20_memory.md R62); the order is the window number. -/
inductive Window where
  | rxp | txp | stg | cht
deriving DecidableEq, Repr

/-- The two rings (10_state.md R40): ring 0 is H2R, ring 1 is R2H. -/
inductive Ring where
  | h2r | r2h
deriving DecidableEq, Repr

/-- The source of an INS (30_encoding.md R82): 0 is STG, 1 is the payload of RXP. -/
inductive InsSource where
  | stg | rxpPayload
deriving DecidableEq, Repr

/-- The code PNRD reads (30_encoding.md R82): 0 is the SOP code, 1 the data code. -/
inductive CodeSelect where
  | sop | data
deriving DecidableEq, Repr

/-- Where LOOKUP takes its channel from (30_encoding.md R82): 0 is the table, 1 the ch field. -/
inductive ChannelSource where
  | table | operand
deriving DecidableEq, Repr

/-- The two values of CFG.PROTO (10_state.md R27): 0 is DSM2-style, 1 is DSMX-style. -/
inductive Proto where
  | dsm2 | dsmx
deriving DecidableEq, Repr

/-- The two legal values of the parameter CH_MOD (00_scope.md R7). -/
inductive ChMod where
  | mod73 | mod74
deriving DecidableEq, Repr

/-- The two legal values of the parameter PARITY_REF (00_scope.md R7). -/
inductive ParityRef where
  | inverted | raw
deriving DecidableEq, Repr

/-- The twelve CSRs (10_state.md R26-R37); the order is the CSR address. -/
inductive Csr where
  | idHi | idLo | cfg | code | crcBase | crcCur | hopIdx | tbl | status | err | bindInfo | rxLen
deriving DecidableEq, Repr

end Sys2Proof
end

