-- ==== Sys2Proof/Syntax.lean ====
section
/-! DEFINITION. The commands of DSMCODEC: one constructor per row of spec/opcode_table.json, its
arguments being the named fields of the row's format (30_encoding.md R82, R84). Every operand has
exactly the width of its field, so every term is the reading of some word. -/

namespace Sys2Proof

/-- A command (30_encoding.md R84). -/
inductive Instr where
  | nop
  | csrr (csr : BitVec 8)
  | csrw (csr : BitVec 8) (value : BitVec 16)
  | bufr (win : Window) (idx : BitVec 5)
  | bufw (win : Window) (idx : BitVec 5) (byte : Byte)
  | derive
  | gentbl (chA chB : Byte)
  | hop
  | flip
  | lookup (src : ChannelSource) (ch : BitVec 7)
  | pnrd (row : BitVec 3) (code : CodeSelect) (k : BitVec 4)
  | bbind (nch proto : Byte)
  | vbind (capture matchId : Bool)
  | bcmd (loss : Bool) (len : BitVec 5)
  | classify
  | ins (rb : Ring) (src : InsSource) (len : BitVec 5)
  | ext (rb : Ring) (max : BitVec 5)
  | rbq (rb : Ring)
  | rbclr (rb : Ring)
deriving DecidableEq, Repr

/-- The row of spec/opcode_table.json a command belongs to. -/
def Instr.mnemonic : Instr → String
  | .nop => "NOP"
  | .csrr _ => "CSRR"
  | .csrw _ _ => "CSRW"
  | .bufr _ _ => "BUFR"
  | .bufw _ _ _ => "BUFW"
  | .derive => "DERIVE"
  | .gentbl _ _ => "GENTBL"
  | .hop => "HOP"
  | .flip => "FLIP"
  | .lookup _ _ => "LOOKUP"
  | .pnrd _ _ _ => "PNRD"
  | .bbind _ _ => "BBIND"
  | .vbind _ _ => "VBIND"
  | .bcmd _ _ => "BCMD"
  | .classify => "CLASS"
  | .ins _ _ _ => "INS"
  | .ext _ _ => "EXT"
  | .rbq _ => "RBQ"
  | .rbclr _ => "RBCLR"

end Sys2Proof
end

