-- ==== Sys2Proof/Decode.lean ====
section
/-! DEFINITION. Decoding and encoding of command words (30_encoding.md R80-R90, R93). -/

namespace Sys2Proof

/-- The two ways a word fails to be a command, in the order they are checked (30_encoding.md R93). -/
inductive DecodeError where
  | illegalOpcode | reservedNonzero
deriving DecidableEq, Repr

/-- The defined opcodes (30_encoding.md R84). -/
inductive Opcode where
  | nop | csrr | csrw | bufr | bufw | derive | gentbl | hop | flip | lookup | pnrd
  | bbind | vbind | bcmd | classify | ins | ext | rbq | rbclr
deriving DecidableEq, Repr

/-- The operand formats (30_encoding.md R82). -/
inductive Format where
  | z | cr | cw | wr | ww | bb | lk | pn | vb | bc | ri | re | rq
deriving DecidableEq, Repr

/-- The opcode map (30_encoding.md R84); every other value is illegal (R85). -/
def opcodeOf (b : BitVec 8) : Option Opcode :=
  match b.toNat with
  | 0x00 => some .nop
  | 0x01 => some .csrr
  | 0x02 => some .csrw
  | 0x03 => some .bufr
  | 0x04 => some .bufw
  | 0x10 => some .derive
  | 0x11 => some .gentbl
  | 0x12 => some .hop
  | 0x13 => some .flip
  | 0x14 => some .lookup
  | 0x15 => some .pnrd
  | 0x20 => some .bbind
  | 0x21 => some .vbind
  | 0x22 => some .bcmd
  | 0x23 => some .classify
  | 0x30 => some .ins
  | 0x31 => some .ext
  | 0x32 => some .rbq
  | 0x33 => some .rbclr
  | _ => none

/-- The format of each opcode (30_encoding.md R84). -/
def formatOf : Opcode → Format
  | .nop | .derive | .hop | .flip | .classify => .z
  | .csrr => .cr
  | .csrw => .cw
  | .bufr => .wr
  | .bufw => .ww
  | .gentbl | .bbind => .bb
  | .lookup => .lk
  | .pnrd => .pn
  | .vbind => .vb
  | .bcmd => .bc
  | .ins => .ri
  | .ext => .re
  | .rbq | .rbclr => .rq

/-- The legal operand-bit masks (30_encoding.md R86). -/
def legalMask : Format → BitVec 24
  | .z  => 0x000000
  | .cr => 0xFF0000
  | .cw => 0xFFFFFF
  | .wr => 0xDF0000
  | .ww => 0xDF00FF
  | .bb => 0x00FFFF
  | .lk => 0x00017F
  | .pn => 0x00071F
  | .vb => 0x000003
  | .bc => 0x00011F
  | .ri => 0x01101F
  | .re => 0x01001F
  | .rq => 0x010000

/-- The field w[lo + len - 1 : lo] (00_scope.md R9). -/
def field (w : Word) (lo len : Nat) : BitVec len := w.extractLsb' lo len

/-- The window of a 2-bit window number (20_memory.md R62). -/
def windowOf (b : BitVec 2) : Window :=
  match b.toNat with
  | 0 => .rxp
  | 1 => .txp
  | 2 => .stg
  | _ => .cht

/-- The ring of the rb bit (30_encoding.md R82). -/
def ringOf (b : BitVec 1) : Ring := if b = 0 then .h2r else .r2h

/-- The insert source of the src bit (30_encoding.md R82). -/
def insSourceOf (b : BitVec 1) : InsSource := if b = 0 then .stg else .rxpPayload

/-- The code of the W bit (30_encoding.md R82). -/
def codeSelectOf (b : BitVec 1) : CodeSelect := if b = 0 then .sop else .data

/-- The channel source of the S bit (30_encoding.md R82). -/
def channelSourceOf (b : BitVec 1) : ChannelSource := if b = 0 then .table else .operand

/-- A one-bit flag operand (30_encoding.md R82). -/
def flagOf (b : BitVec 1) : Bool := b = 1

/-- The command of an opcode and its operand fields (30_encoding.md R82, R83). -/
def operandsOf (op : Opcode) (w : Word) : Instr :=
  match op with
  | .nop => .nop
  | .csrr => .csrr (field w 16 8)
  | .csrw => .csrw (field w 16 8) (field w 0 16)
  | .bufr => .bufr (windowOf (field w 22 2)) (field w 16 5)
  | .bufw => .bufw (windowOf (field w 22 2)) (field w 16 5) (field w 0 8)
  | .derive => .derive
  | .gentbl => .gentbl (field w 8 8) (field w 0 8)
  | .hop => .hop
  | .flip => .flip
  | .lookup => .lookup (channelSourceOf (field w 8 1)) (field w 0 7)
  | .pnrd => .pnrd (field w 8 3) (codeSelectOf (field w 4 1)) (field w 0 4)
  | .bbind => .bbind (field w 8 8) (field w 0 8)
  | .vbind => .vbind (flagOf (field w 1 1)) (flagOf (field w 0 1))
  | .bcmd => .bcmd (flagOf (field w 8 1)) (field w 0 5)
  | .classify => .classify
  | .ins => .ins (ringOf (field w 16 1)) (insSourceOf (field w 12 1)) (field w 0 5)
  | .ext => .ext (ringOf (field w 16 1)) (field w 0 5)
  | .rbq => .rbq (ringOf (field w 16 1))
  | .rbclr => .rbclr (ringOf (field w 16 1))

/-- The decode steps of 30_encoding.md R93: the opcode, then the reserved bits, then the fields. -/
def decode (w : Word) : Except DecodeError Instr :=
  match opcodeOf (field w 24 8) with
  | none => .error .illegalOpcode
  | some op =>
    if field w 0 24 &&& ~~~(legalMask (formatOf op)) ≠ 0 then .error .reservedNonzero
    else .ok (operandsOf op w)

/-- The number of a window (20_memory.md R62). -/
def windowBits : Window → BitVec 2
  | .rxp => 0
  | .txp => 1
  | .stg => 2
  | .cht => 3

/-- The rb bit of a ring (30_encoding.md R82). -/
def ringBit : Ring → BitVec 1
  | .h2r => 0
  | .r2h => 1

/-- The src bit of an insert source (30_encoding.md R82). -/
def insSourceBit : InsSource → BitVec 1
  | .stg => 0
  | .rxpPayload => 1

/-- The W bit of a code (30_encoding.md R82). -/
def codeSelectBit : CodeSelect → BitVec 1
  | .sop => 0
  | .data => 1

/-- The S bit of a channel source (30_encoding.md R82). -/
def channelSourceBit : ChannelSource → BitVec 1
  | .table => 0
  | .operand => 1

/-- The word of a command: opcode, then the fields of its format with zeros in the reserved places,
most significant first (30_encoding.md R81, R82, R84). -/
def encode : Instr → Word
  | .nop => 0x00#8 ++ 0#24
  | .csrr csr => 0x01#8 ++ csr ++ 0#16
  | .csrw csr value => 0x02#8 ++ csr ++ value
  | .bufr win idx => 0x03#8 ++ windowBits win ++ 0#1 ++ idx ++ 0#16
  | .bufw win idx byte => 0x04#8 ++ windowBits win ++ 0#1 ++ idx ++ 0#8 ++ byte
  | .derive => 0x10#8 ++ 0#24
  | .gentbl chA chB => 0x11#8 ++ 0#8 ++ chA ++ chB
  | .hop => 0x12#8 ++ 0#24
  | .flip => 0x13#8 ++ 0#24
  | .lookup src ch => 0x14#8 ++ 0#15 ++ channelSourceBit src ++ 0#1 ++ ch
  | .pnrd row code k => 0x15#8 ++ 0#13 ++ row ++ 0#3 ++ codeSelectBit code ++ k
  | .bbind nch proto => 0x20#8 ++ 0#8 ++ nch ++ proto
  | .vbind capture matchId => 0x21#8 ++ 0#22 ++ BitVec.ofBool capture ++ BitVec.ofBool matchId
  | .bcmd loss len => 0x22#8 ++ 0#15 ++ BitVec.ofBool loss ++ 0#3 ++ len
  | .classify => 0x23#8 ++ 0#24
  | .ins rb src len => 0x30#8 ++ 0#7 ++ ringBit rb ++ 0#3 ++ insSourceBit src ++ 0#7 ++ len
  | .ext rb max => 0x31#8 ++ 0#7 ++ ringBit rb ++ 0#11 ++ max
  | .rbq rb => 0x32#8 ++ 0#7 ++ ringBit rb ++ 0#16
  | .rbclr rb => 0x33#8 ++ 0#7 ++ ringBit rb ++ 0#16

/-- The command the decoder reads from an instruction of spec/opcode_table.json whose bits are `w`.
A command is one 32-bit word (30_encoding.md R80), so the bits above `nbits` are zero. -/
def decodeTableWord (nbits w : Nat) : Option Instr :=
  match decode (BitVec.ofNat 32 (w % 2 ^ nbits)) with
  | .ok i => some i
  | .error _ => none

end Sys2Proof
end

