-- ==== Sys2Proof/Config.lean ====
section
/-! DEFINITION. The implementation parameters of 00_scope.md R7 and the values the spec leaves open. -/

namespace Sys2Proof

/-- PN_ROM: 5 rows of 9 columns of 8 bytes (42_code_selector.md R156). -/
abbrev PnRom := Vector (Vector (Vector Byte 8) 9) 5

/-- The parameters a model takes as arguments (00_scope.md R7). They are carried by State, so that
every statement about all states holds for all parameter values; no step changes them.
DESIGN CHOICE (log 4), safe. -/
structure Params where
  rbCap     : Nat
  chMod     : ChMod
  parityRef : ParityRef
  pnRom     : PnRom
deriving DecidableEq, Repr

/-- The legal range of RB_CAP (00_scope.md R7, R8). CH_MOD and PARITY_REF are legal by their types. -/
abbrev Params.Legal (p : Params) : Prop := 2 ≤ p.rbCap ∧ p.rbCap ≤ 4096

/-- CH_MOD as a number (00_scope.md R7). -/
def ChMod.value : ChMod → Nat
  | .mod73 => 73
  | .mod74 => 74

/-- The contents of PN_ROM, which are in no source (00_scope.md R7, 92_eei_decisions.md D20): a free
value. Log 5, safe. -/
opaque Config.pnRom : PnRom

/-- What a ring storage byte holds before anything was written to it (10_state.md R43, 20_memory.md
R63: unspecified): a free value. No command of a run from reset reads one. Log 6, safe. -/
opaque Config.ringUnwritten : Ring → Nat → Byte

/-- What a read of CHT at an index past 22 would give: a free value. No run from reset reads one
(10_state.md R41 b). Log 7, safe. -/
opaque Config.chtBeyond : Nat → Byte

/-- What HOP would leave in HOP_IDX if TVALID were 1 and TBL_LEN 0, a remainder modulo 0 that
00_scope.md R10 does not define: a free value. No run from reset gets there (10_state.md R41 b).
Log 8, safe. -/
opaque Config.hopModZero : BitVec 5 → BitVec 5

/-- The reference configuration: the defaults of 00_scope.md R7. DESIGN CHOICE (log 4). -/
def Params.default : Params :=
  { rbCap := 256, chMod := .mod73, parityRef := .inverted, pnRom := Config.pnRom }

end Sys2Proof
end

