-- ==== Sys2Proof/Machine/State.lean ====
section
/-! DEFINITION. The state of DSMCODEC (10_state.md R24), its reset value (R43), and the reasons a step
can stop. -/

namespace Sys2Proof.Machine

open Sys2Proof

/-- The error statuses 1 to 6 (60_exceptions.md R230). -/
inductive ErrCode where
  | illegalOpcode | reservedNonzero | badCsr | readOnly | noTable | badOperand
deriving DecidableEq, Repr

/-- The status of a response (30_encoding.md R89): OK or an error. -/
inductive Status where
  | ok
  | err (e : ErrCode)
deriving DecidableEq, Repr

/-- The response of one command (30_encoding.md R89). -/
structure Response where
  status : Status
  data   : Word
deriving DecidableEq, Repr

/-- A ring storage: the cells written since reset, with strictly rising addresses. A cell that is not
listed has never been written and its value is unspecified (10_state.md R43). Log 6. -/
abbrev Memory := List Host.Cell

/-- One ring buffer (10_state.md R40): IN, OUT and the storage. -/
structure RingBuf where
  inIdx  : Nat
  outIdx : Nat
  store  : Memory
deriving DecidableEq, Repr

/-- The architectural state of 10_state.md R24, then the model's own fields: the parameters (log 4),
the commands delivered to the port and not yet taken, oldest first (log 1), and the responses
returned and not yet collected, oldest first (log 2). -/
structure State where
  mid       : Vector Byte 4
  proto     : Proto
  clsPlus2  : Bool
  frm0      : Bool
  frm1      : Bool
  crcCur    : BitVec 16
  hopIdx    : BitVec 5
  tblLen    : BitVec 5
  tvalid    : Bool
  err       : BitVec 6
  bindNch   : Byte
  bindProto : Byte
  rxLen     : BitVec 5
  rxp       : Vector Byte 16
  txp       : Vector Byte 16
  stg       : Vector Byte 16
  cht       : Vector Byte 23
  h2r       : RingBuf
  r2h       : RingBuf
  params    : Params
  port      : List Word
  responses : List Response
deriving DecidableEq, Repr

/-- The reasons a step faults. The block itself has none (60_exceptions.md R236). -/
inductive Fault where
  /-- Raised by GENTBL in DSMX mode if its generator has not filled the table after 2^32 candidates.
  41_channel_sequencer.md R136 derives that this never happens, and Laws/Generator.lean proves it of
  the model, so no step raises it. Log 10, safe. -/
  | generatorExhausted
deriving DecidableEq, Repr

/-- The reasons a step refuses. -/
inductive Refusal where
  /-- Raised by exec for a command that has no meaning yet. No command is left without one. Safe. -/
  | notModelled (mnemonic : String)
deriving DecidableEq, Repr

/-- An empty ring (10_state.md R43): both indices 0, no storage byte written. -/
def RingBuf.reset : RingBuf := { inIdx := 0, outIdx := 0, store := [] }

/-- The state after reset of a block with parameters `p` (10_state.md R43, 70_reset_and_hazards.md
R260). The port and the responses are empty (logs 1, 2). -/
def State.resetWith (p : Params) : State :=
  { mid := Vector.replicate 4 0
    proto := .dsm2
    clsPlus2 := true
    frm0 := false
    frm1 := false
    crcCur := 0x0000
    hopIdx := 0
    tblLen := 0
    tvalid := false
    err := 0
    bindNch := 0
    bindProto := 0
    rxLen := 0
    rxp := Vector.replicate 16 0
    txp := Vector.replicate 16 0
    stg := Vector.replicate 16 0
    cht := Vector.replicate 23 0
    h2r := RingBuf.reset
    r2h := RingBuf.reset
    params := p
    port := []
    responses := [] }

/-- The state after reset with the reference configuration of 00_scope.md R7 (log 4). -/
def State.reset : State := State.resetWith Params.default

end Sys2Proof.Machine
end

