-- ==== Sys2Proof/Machine/Ops.lean ====
section
/-! DEFINITION. The shared operations: taking a command from the port, answering it, raising an error
(60_exceptions.md R232), and the ring storages and ring primitives (20_memory.md R63, R66-R70). -/

namespace Sys2Proof.Machine

open Sys2Proof

/-! ### Bytes of a half word (00_scope.md R9) -/

/-- v[15:8]. -/
def highByte (v : BitVec 16) : Byte := v.extractLsb' 8 8

/-- v[7:0]. -/
def lowByte (v : BitVec 16) : Byte := v.extractLsb' 0 8

/-! ### The command port -/

/-- The next command word and the state in which the port has given it up (10_state.md R20, R21);
none when no command has been delivered. -/
def fetch (s : State) : Option (Word × State) :=
  match s.port with
  | [] => none
  | w :: rest => some (w, { s with port := rest })

/-- The state in which `w` is the next command the port gives. -/
def deliverNext (s : State) (w : Word) : State := { s with port := w :: s.port }

/-! ### Answering a command -/

/-- The 3-bit status code (60_exceptions.md R230). -/
def errNumber : ErrCode → Nat
  | .illegalOpcode => 1
  | .reservedNonzero => 2
  | .badCsr => 3
  | .readOnly => 4
  | .noTable => 5
  | .badOperand => 6

/-- The status field of a response (30_encoding.md R89). -/
def statusBits : Status → BitVec 3
  | .ok => 0
  | .err e => BitVec.ofNat 3 (errNumber e)

/-- ERR[n] as a mask over the six bits ERR[6:1] (10_state.md R33). -/
def errMask (e : ErrCode) : BitVec 6 := 1#6 <<< (errNumber e - 1)

/-- The error status of a word that is no command (30_encoding.md R93). -/
def decodeErrCode : DecodeError → ErrCode
  | .illegalOpcode => .illegalOpcode
  | .reservedNonzero => .reservedNonzero

/-- A command that ends with status OK returns its response data (30_encoding.md R89). -/
def State.respond (s : State) (data : Word) : State :=
  { s with responses := s.responses ++ [⟨.ok, data⟩] }

/-- The error effect (60_exceptions.md R232): data 0, ERR[n] set, nothing else changed. This is all
there is to an exception on this block: no state is saved, no mode changes, there is no handler and
no return (R236, R237). -/
def State.raise (s : State) (e : ErrCode) : State :=
  { s with err := s.err ||| errMask e, responses := s.responses ++ [⟨.err e, 0⟩] }

/-- The outcomes of a command. -/
abbrev Result := Host.Outcome State Fault Refusal

/-- End the command with status OK in state `s`. -/
def done (s : State) (data : Word) : Result := .next (s.respond data)

/-- End the command with an error (`raise Error(code)` of 00_scope.md R11). -/
def fail (s : State) (e : ErrCode) : Result := .next (s.raise e)

/-! ### Ring storage -/

/-- The byte written at address `a` since reset, if any (20_memory.md R63). -/
def Memory.find : Memory → Nat → Option Byte
  | [], _ => none
  | (b, v) :: m, a => if a = b then some v else Memory.find m a

/-- MemRead(RB_r, a, 1) (00_scope.md R11): the byte last written, or an unspecified value (log 6). -/
def Memory.read (r : Ring) (m : Memory) (a : Nat) : Byte :=
  (Memory.find m a).getD (Config.ringUnwritten r a)

/-- MemWrite(RB_r, a, 1, v) (00_scope.md R11), keeping the addresses strictly rising. -/
def Memory.write : Memory → Nat → Byte → Memory
  | [], a, v => [(a, v)]
  | (b, w) :: m, a, v =>
    if a < b then (a, v) :: (b, w) :: m
    else if a = b then (a, v) :: m
    else (b, w) :: Memory.write m a v

/-- Every address of the storage is above `lo`. -/
def Memory.above (lo : Nat) : Memory → Bool
  | [] => true
  | (b, _) :: m => decide (lo < b) && Memory.above lo m

/-- The canonical form: addresses strictly rising. An unlisted cell has no value, so a list of this
form says exactly which cells were written and what they hold (log 6). -/
def Memory.wf : Memory → Bool
  | [] => true
  | (b, _) :: m => Memory.above b m && Memory.wf m

/-- Write a sequence at consecutive addresses modulo the capacity (the loop of 20_memory.md R69). -/
def Memory.writeSeq (cap : Nat) : Memory → Nat → List Byte → Memory
  | m, _, [] => m
  | m, a, b :: d => Memory.writeSeq cap (Memory.write m (a % cap) b) (a + 1) d

/-! ### Ring primitives -/

/-- Ring r (10_state.md R40). -/
def State.ring (s : State) : Ring → RingBuf
  | .h2r => s.h2r
  | .r2h => s.r2h

/-- The state with ring r replaced. -/
def State.setRing (s : State) (r : Ring) (b : RingBuf) : State :=
  match r with
  | .h2r => { s with h2r := b }
  | .r2h => { s with r2h := b }

/-- FRM_r, CFG bit 2 + r (10_state.md R27). -/
def State.framed (s : State) : Ring → Bool
  | .h2r => s.frm0
  | .r2h => s.frm1

/-- RbUsed(r) (20_memory.md R66), with the mathematical remainder of 00_scope.md R10. -/
def rbUsed (s : State) (r : Ring) : Nat :=
  ((((s.ring r).inIdx : Int) - ((s.ring r).outIdx : Int)) % (s.params.rbCap : Int)).toNat

/-- RbFree(r) (20_memory.md R67). -/
def rbFree (s : State) (r : Ring) : Nat := s.params.rbCap - 1 - rbUsed s r

/-- RbPeek(r, i) (20_memory.md R68). -/
def rbPeek (s : State) (r : Ring) (i : Nat) : Byte :=
  Memory.read r (s.ring r).store (((s.ring r).outIdx + i) % s.params.rbCap)

/-- The held bytes, oldest first. -/
def rbHeld (s : State) (r : Ring) : List Byte := (List.range (rbUsed s r)).map (rbPeek s r)

/-- RbPush(r, d) (20_memory.md R69). -/
def rbPush (s : State) (r : Ring) (d : List Byte) : State :=
  s.setRing r
    { inIdx := ((s.ring r).inIdx + d.length) % s.params.rbCap
      outIdx := (s.ring r).outIdx
      store := Memory.writeSeq s.params.rbCap (s.ring r).store (s.ring r).inIdx d }

/-- RbDrop(r, n) (20_memory.md R70). -/
def rbDrop (s : State) (r : Ring) (n : Nat) : State :=
  s.setRing r { s.ring r with outIdx := ((s.ring r).outIdx + n) % s.params.rbCap }

end Sys2Proof.Machine
end

