-- ==== Sys2Proof/Machine/Operands.lean ====
section
/-! DEFINITION. Operand forms: CSR addresses (10_state.md R37), window bytes (20_memory.md R62),
channel-table entries (10_state.md R39) and the bytes an INS takes (44_stream_shuttle.md R200). -/

namespace Sys2Proof.Machine

open Sys2Proof

/-- The CSR at an address; none for 0x0C-0xFF (10_state.md R37). -/
def csrAt (a : BitVec 8) : Option Csr :=
  match a.toNat with
  | 0x00 => some .idHi
  | 0x01 => some .idLo
  | 0x02 => some .cfg
  | 0x03 => some .code
  | 0x04 => some .crcBase
  | 0x05 => some .crcCur
  | 0x06 => some .hopIdx
  | 0x07 => some .tbl
  | 0x08 => some .status
  | 0x09 => some .err
  | 0x0A => some .bindInfo
  | 0x0B => some .rxLen
  | _ => none

/-- W[i], or none when i ≥ size(W) (20_memory.md R62). -/
def windowByte (s : State) (win : Window) (i : Nat) : Option Byte :=
  match win with
  | .rxp => s.rxp[i]?
  | .txp => s.txp[i]?
  | .stg => s.stg[i]?
  | .cht => s.cht[i]?

/-- W[i] <- b for the windows BUFW may write (20_memory.md R62); i < 16. -/
def setWindowByte (s : State) (win : Window) (i : Nat) (b : Byte) : State :=
  match win with
  | .rxp => { s with rxp := s.rxp.setIfInBounds i b }
  | .txp => { s with txp := s.txp.setIfInBounds i b }
  | .stg => { s with stg := s.stg.setIfInBounds i b }
  | .cht => s

/-- CHT[i] (10_state.md R39). CHT has 23 entries; beyond them a free value (log 7). -/
def chtEntry (s : State) (i : BitVec 5) : Byte :=
  (s.cht[i.toNat]?).getD (Config.chtBeyond i.toNat)

/-- The n bytes an INS inserts, oldest first (44_stream_shuttle.md R200): STG[0..n-1] or
RXP[2..2+n-1]. -/
def insertBytes (s : State) (src : InsSource) (n : Nat) : List Byte :=
  match src with
  | .stg => s.stg.toList.take n
  | .rxpPayload => (s.rxp.toList.drop 2).take n

/-- The most bytes an INS may take from each source (44_stream_shuttle.md R200). -/
def insertLimit : InsSource → Nat
  | .stg => 16
  | .rxpPayload => 14

end Sys2Proof.Machine
end

