-- ==== Sys2Proof/Machine/Flags.lean ====
section
/-! DEFINITION. The pure functions of the state that commands report or test: the selector functions
(42_code_selector.md R150-R152), the packet functions and test bits (43_packet_codec.md R170, R171,
R173, R175, R177), the frame predicate (44_stream_shuttle.md R202) and the CSR read and write
behaviours (10_state.md R26-R36). -/

namespace Sys2Proof.Machine

open Sys2Proof

/-! ### Selector functions -/

/-- sop_col (42_code_selector.md R150). -/
def sopCol (mid : Vector Byte 4) : BitVec 3 :=
  BitVec.ofNat 3 ((mid[0].toNat + mid[1].toNat + mid[2].toNat + 2) % 8)

/-- data_col (42_code_selector.md R150). -/
def dataCol (mid : Vector Byte 4) : BitVec 3 := BitVec.ofNat 3 (7 - (sopCol mid).toNat)

/-- pn_row (42_code_selector.md R151), with the mathematical remainder of 00_scope.md R10. -/
def pnRow (proto : Proto) (ch : Nat) : BitVec 3 :=
  match proto with
  | .dsm2 => BitVec.ofNat 3 (ch % 5)
  | .dsmx => BitVec.ofNat 3 (((ch : Int) - 2) % 5).toNat

/-- crc_base (42_code_selector.md R152). -/
def crcBase (mid : Vector Byte 4) : BitVec 16 := ~~~(mid[0] ++ mid[1])

/-! ### Packet functions -/

/-- An id byte as it stands in a header: inverted in DSM2 mode, raw in DSMX mode (43_packet_codec.md
R170). -/
def headerByte (proto : Proto) (b : Byte) : Byte :=
  match proto with
  | .dsm2 => ~~~b
  | .dsmx => b

/-- H0 (43_packet_codec.md R170). -/
def header0 (s : State) : Byte := headerByte s.proto s.mid[2]

/-- B1 (43_packet_codec.md R170). -/
def header1Base (s : State) : Byte := headerByte s.proto s.mid[3]

/-- s1 (43_packet_codec.md R171). -/
def stage1 (p : Vector Byte 16) : BitVec 16 :=
  BitVec.ofNat 16 (368 + p[0].toNat + p[1].toNat + p[2].toNat + p[3].toNat
    + p[4].toNat + p[5].toNat + p[6].toNat + p[7].toNat)

/-- s2 (43_packet_codec.md R171). -/
def stage2 (p : Vector Byte 16) : BitVec 16 :=
  BitVec.ofNat 16 ((stage1 p).toNat + p[8].toNat + p[9].toNat + p[10].toNat + p[11].toNat
    + p[12].toNat + p[13].toNat)

/-- len_ok (43_packet_codec.md R175). -/
def lenOk (s : State) : Bool := s.rxLen == 16

/-- dbl_ok (43_packet_codec.md R173). -/
def dblOk (s : State) : Bool :=
  s.rxp[0] == s.rxp[4] && s.rxp[1] == s.rxp[5] && s.rxp[2] == s.rxp[6] && s.rxp[3] == s.rxp[7]

/-- s1_ok (43_packet_codec.md R173). -/
def s1Ok (s : State) : Bool :=
  s.rxp[8] == highByte (stage1 s.rxp) && s.rxp[9] == lowByte (stage1 s.rxp)

/-- s2_ok (43_packet_codec.md R173), big-endian by 20_memory.md R64. -/
def s2Ok (s : State) : Bool :=
  s.rxp[14] == highByte (stage2 s.rxp) && s.rxp[15] == lowByte (stage2 s.rxp)

/-- id_ok (43_packet_codec.md R173). -/
def idOk (s : State) : Bool :=
  s.rxp[0] == ~~~s.mid[0] && s.rxp[1] == ~~~s.mid[1] && s.rxp[2] == ~~~s.mid[2]
    && s.rxp[3] == ~~~s.mid[3]

/-- bind_ok (43_packet_codec.md R173). -/
def bindOk (s : State) : Bool := lenOk s && dblOk s && s1Ok s && s2Ok s

/-- off (43_packet_codec.md R177), modulo 256. -/
def headerOffset (s : State) : Byte := s.rxp[1] - header1Base s

/-- h0_match (43_packet_codec.md R177). -/
def header0Match (s : State) : Bool := s.rxp[0] == header0 s

/-! ### Frame predicate -/

/-- z of 44_stream_shuttle.md R202: how many of the held bytes precede the first nonzero one. -/
def leadingZeros (held : List Byte) : Nat := (held.takeWhile (· == 0)).length

/-- L of 44_stream_shuttle.md R202: the first nonzero held byte, or 0. -/
def frameLength (held : List Byte) : Byte := (held[leadingZeros held]?).getD 0

/-- frame_avail (44_stream_shuttle.md R202). -/
def frameAvailable (held : List Byte) : Bool :=
  decide (leadingZeros held < held.length) &&
    decide ((frameLength held).toNat ≤ held.length - leadingZeros held - 1)

/-! ### CSR read and write behaviours -/

/-- CFG as it reads (10_state.md R27). -/
def cfgRead (s : State) : BitVec 16 :=
  0#12 ++ BitVec.ofBool s.frm1 ++ BitVec.ofBool s.frm0 ++ BitVec.ofBool s.clsPlus2
    ++ (match s.proto with | .dsm2 => 0#1 | .dsmx => 1#1)

/-- STATUS as it reads (10_state.md R36). -/
def statusRead (s : State) : BitVec 16 :=
  0#14 ++ BitVec.ofBool (s.crcCur == ~~~(crcBase s.mid)) ++ BitVec.ofBool (s.crcCur == crcBase s.mid)

/-- The read value of a CSR (10_state.md R26-R36). -/
def csrRead (s : State) : Csr → BitVec 16
  | .idHi => s.mid[0] ++ s.mid[1]
  | .idLo => s.mid[2] ++ s.mid[3]
  | .cfg => cfgRead s
  | .code => 0#10 ++ dataCol s.mid ++ sopCol s.mid
  | .crcBase => crcBase s.mid
  | .crcCur => s.crcCur
  | .hopIdx => 0#11 ++ s.hopIdx
  | .tbl => 0#7 ++ BitVec.ofBool s.tvalid ++ 0#3 ++ s.tblLen
  | .status => statusRead s
  | .err => 0#9 ++ s.err ++ 0#1
  | .bindInfo => s.bindNch ++ s.bindProto
  | .rxLen => 0#11 ++ s.rxLen

/-- CFG.PROTO of a written value (10_state.md R27). -/
def protoOf (v : BitVec 16) : Proto := if v.getLsbD 0 then .dsmx else .dsm2

/-- The write of CFG (10_state.md R27): TVALID is cleared when PROTO changes. -/
def cfgWrite (s : State) (v : BitVec 16) : State :=
  { s with
    tvalid := if protoOf v = s.proto then s.tvalid else false
    proto := protoOf v
    clsPlus2 := v.getLsbD 1
    frm0 := v.getLsbD 2
    frm1 := v.getLsbD 3 }

/-- The write behaviour of a CSR (10_state.md R26-R36), with the error it raises. -/
def csrWrite (s : State) (c : Csr) (v : BitVec 16) : Except ErrCode State :=
  match c with
  | .idHi =>
      .ok { s with mid := #v[highByte v, lowByte v, s.mid[2], s.mid[3]], tvalid := false }
  | .idLo =>
      .ok { s with mid := #v[s.mid[0], s.mid[1], highByte v, lowByte v], tvalid := false }
  | .cfg => .ok (cfgWrite s v)
  | .crcCur => .ok { s with crcCur := v }
  | .hopIdx =>
      if s.tvalid = false then .error .noTable
      else if s.tblLen.toNat ≤ v.toNat then .error .badOperand
      else .ok { s with hopIdx := v.setWidth 5 }
  | .err => .ok { s with err := s.err &&& ~~~(v.extractLsb' 1 6) }
  | .rxLen =>
      if 16 < v.toNat then .error .badOperand
      else .ok { s with rxLen := v.setWidth 5 }
  | .code | .crcBase | .tbl | .status | .bindInfo => .error .readOnly

end Sys2Proof.Machine
end

