-- ==== Sys2Proof/Machine/ChannelSequencer.lean ====
section
/-! DEFINITION. The channel sequencer: the generator functions and GENTBL, HOP
(41_channel_sequencer.md). -/

namespace Sys2Proof.Machine

open Sys2Proof

/-! ### Generator functions -/

/-- ID32, with MID[0] most significant (41_channel_sequencer.md R131, 20_memory.md R64 b). -/
def id32 (mid : Vector Byte 4) : Word := mid[0] ++ mid[1] ++ mid[2] ++ mid[3]

/-- One step of the generator word (41_channel_sequencer.md R131), modulo 2^32. -/
def lcgNext (x : Word) : Word := x * 0x0019660D + 0x3C6EF35F

/-- The candidate channel of a generator word (41_channel_sequencer.md R132). -/
def candidate (chMod : ChMod) (x : Word) : Nat := (x.extractLsb' 8 24).toNat % chMod.value + 3

/-- P[0], the bit a candidate's low bit must differ from (41_channel_sequencer.md R133). -/
def parityBit (ref : ParityRef) (mid : Vector Byte 4) : Bool :=
  match ref with
  | .inverted => (~~~(id32 mid)).getLsbD 0
  | .raw => (id32 mid).getLsbD 0

/-- The parity test (41_channel_sequencer.md R133). -/
def parityPasses (p : Bool) (c : Nat) : Bool := decide (c % 2 = 1) != p

/-- The three channel ranges (41_channel_sequencer.md R134), each by its number 0 = A, 1 = B, 2 = C. -/
def rangeOf (c : Nat) : Nat := if c ≤ 27 then 0 else if c ≤ 51 then 1 else 2

/-- The quota of a range (41_channel_sequencer.md R134). -/
def quotaOf (range : Nat) : Nat := if range = 1 then 7 else 8

/-- How many entries of a partial table lie in a range. -/
def usesOf (range : Nat) (s : List Nat) : Nat := (s.filter fun c => rangeOf c == range).length

/-- A candidate is accepted when it passes all three tests (41_channel_sequencer.md R133-R135). -/
def accepts (p : Bool) (s : List Nat) (c : Nat) : Bool :=
  parityPasses p c && !s.contains c && decide (usesOf (rangeOf c) s < quotaOf (rangeOf c))

/-- The loop of 41_channel_sequencer.md R135, from generator word `x`, partial table `s` and
iteration count `n`, for at most `fuel` iterations; none if they do not fill the table. -/
def dsmxLoop (chMod : ChMod) (p : Bool) : Nat → Word → List Nat → Nat → Option (List Nat × Nat)
  | 0, _, s, n => if s.length < 23 then none else some (s, n)
  | fuel + 1, x, s, n =>
    if s.length < 23 then
      if accepts p s (candidate chMod (lcgNext x)) then
        dsmxLoop chMod p fuel (lcgNext x) (s ++ [candidate chMod (lcgNext x)]) (n + 1)
      else dsmxLoop chMod p fuel (lcgNext x) s (n + 1)
    else some (s, n)

/-- dsmx_table(MID) (41_channel_sequencer.md R135): the 23 channels and the iteration count. The
bound 2^32 on the iterations is R136's. Irreducible so that no tactic runs the generator on a
symbolic id by chance; the kernel evaluates it on a given one. -/
@[irreducible] def dsmxTable (params : Params) (mid : Vector Byte 4) : Option (List Nat × Nat) :=
  dsmxLoop params.chMod (parityBit params.parityRef mid) (2 ^ 32) (~~~(id32 mid)) [] 0

/-! ### Commands -/

/-- The GENTBL response {it, 0b000, TBL_LEN} (41_channel_sequencer.md R130), it saturating. -/
def gentblData (it : Nat) (len : BitVec 5) : Word :=
  BitVec.ofNat 24 (min it 0xFFFFFF) ++ 0#3 ++ len

/-- A channel pair GENTBL refuses in DSM2 mode (41_channel_sequencer.md R130). -/
def pairRefused (chA chB : Byte) : Bool :=
  decide (chA.toNat < 3) || decide (76 < chA.toNat) || decide (chB.toNat < 3)
    || decide (76 < chB.toNat) || chA == chB

/-- GENTBL in DSM2 mode (41_channel_sequencer.md R130). -/
def gentblDsm2 (chA chB : Byte) (s : State) : Result :=
  if pairRefused chA chB then fail s .badOperand
  else
    done { s with
      cht := (s.cht.set 0 chA).set 1 chB
      tblLen := 2
      tvalid := true
      hopIdx := 0 } (gentblData 0 2)

/-- The DSMX effect of GENTBL once the generator has answered (41_channel_sequencer.md R130). -/
def storeTable (s : State) : Option (List Nat × Nat) → Result
  | none => .fault .generatorExhausted
  | some (table, it) =>
    done { s with
      cht := Vector.ofFn fun i : Fin 23 => BitVec.ofNat 8 ((table[i.val]?).getD 0)
      tblLen := 23
      tvalid := true
      hopIdx := 0 } (gentblData it 23)

/-- GENTBL in DSMX mode (41_channel_sequencer.md R130, R135, R136). -/
def gentblDsmx (s : State) : Result := storeTable s (dsmxTable s.params s.mid)

/-- GENTBL (41_channel_sequencer.md R130); the operands are ignored in DSMX mode (30_encoding.md
R87). -/
def execGentbl (chA chB : Byte) (s : State) : Result :=
  match s.proto with
  | .dsm2 => gentblDsm2 chA chB s
  | .dsmx => gentblDsmx s

/-- (HOP_IDX + 1) mod TBL_LEN (41_channel_sequencer.md R137). TBL_LEN = 0 is met in no run from reset
with TVALID = 1; the remainder is then a free value (log 8). -/
def nextHopIdx (hopIdx tblLen : BitVec 5) : BitVec 5 :=
  if tblLen = 0 then Config.hopModZero hopIdx
  else BitVec.ofNat 5 ((hopIdx.toNat + 1) % tblLen.toNat)

/-- HOP (41_channel_sequencer.md R137). -/
def execHop (s : State) : Result :=
  if s.tvalid = false then fail s .noTable
  else
    done { s with hopIdx := nextHopIdx s.hopIdx s.tblLen, crcCur := ~~~s.crcCur }
      (~~~s.crcCur ++ 0#3 ++ nextHopIdx s.hopIdx s.tblLen
        ++ chtEntry s (nextHopIdx s.hopIdx s.tblLen))

end Sys2Proof.Machine
end

