-- ==== Sys2Proof/Machine/CodeSelector.lean ====
section
/-! DEFINITION. The code selector: DERIVE, FLIP, LOOKUP, PNRD (42_code_selector.md). -/

namespace Sys2Proof.Machine

open Sys2Proof

/-- DERIVE (42_code_selector.md R153). -/
def execDerive (s : State) : Result :=
  done { s with crcCur := crcBase s.mid, hopIdx := 0 }
    (0#10 ++ dataCol s.mid ++ sopCol s.mid ++ crcBase s.mid)

/-- FLIP (42_code_selector.md R154). -/
def execFlip (s : State) : Result :=
  done { s with crcCur := ~~~s.crcCur } ((~~~s.crcCur).setWidth 32)

/-- The LOOKUP response for a channel (42_code_selector.md R155). -/
def lookupData (s : State) (chan : Byte) : Word :=
  dataCol s.mid ++ sopCol s.mid ++ pnRow s.proto chan.toNat ++ chan.extractLsb' 0 7 ++ s.crcCur

/-- LOOKUP (42_code_selector.md R155); with S = 0 the ch field is ignored (30_encoding.md R87). -/
def execLookup (src : ChannelSource) (ch : BitVec 7) (s : State) : Result :=
  match src with
  | .table =>
      if s.tvalid = false then fail s .noTable
      else done s (lookupData s (chtEntry s s.hopIdx))
  | .operand => done s (lookupData s (ch.setWidth 8))

/-- PN_ROM[row][col][k] (42_code_selector.md R156). -/
def romByte (rom : PnRom) (row : Fin 5) (col : Fin 9) (k : Fin 8) : Byte := rom[row][col][k]

/-- The column of the byte `k` PNRD reads (42_code_selector.md R156): sop_col for the SOP code;
data_col and then the next column for the data code, data_col + 1 being at most 8. -/
def pnColumn (mid : Vector Byte 4) (code : CodeSelect) (k : BitVec 4) : Fin 9 :=
  match code with
  | .sop => ⟨(sopCol mid).toNat, by have := (sopCol mid).isLt; omega⟩
  | .data => ⟨(dataCol mid).toNat + k.toNat / 8, by
      have := (dataCol mid).isLt
      have := k.isLt
      omega⟩

/-- PNRD (42_code_selector.md R156). -/
def execPnrd (row : BitVec 3) (code : CodeSelect) (k : BitVec 4) (s : State) : Result :=
  if h : row.toNat < 5 then
    if code = .sop ∧ 7 < k.toNat then fail s .badOperand
    else
      done s ((romByte s.params.pnRom ⟨row.toNat, h⟩ (pnColumn s.mid code k)
        ⟨k.toNat % 8, Nat.mod_lt _ (by decide)⟩).setWidth 32)
  else fail s .badOperand

end Sys2Proof.Machine
end

