-- ==== Sys2Proof/Machine/PacketCodec.lean ====
section
/-! DEFINITION. The packet framer and checksum validator: BBIND, VBIND, BCMD, CLASS
(43_packet_codec.md). -/

namespace Sys2Proof.Machine

open Sys2Proof

/-- A bind packet with the given bytes 8, 9, 14 and 15 (43_packet_codec.md R172): the complemented id
twice, the marker 0x01 and the reserved byte 0x00. -/
def bindPacket (mid : Vector Byte 4) (nch proto : Byte) (t1 t2 : BitVec 16) : Vector Byte 16 :=
  #v[~~~mid[0], ~~~mid[1], ~~~mid[2], ~~~mid[3], ~~~mid[0], ~~~mid[1], ~~~mid[2], ~~~mid[3],
    highByte t1, lowByte t1, 0x01, nch, proto, 0x00, highByte t2, lowByte t2]

/-- t1 of BBIND: s1 over the id bytes (43_packet_codec.md R172). -/
def bindSum1 (mid : Vector Byte 4) : BitVec 16 := stage1 (bindPacket mid 0 0 0 0)

/-- t2 of BBIND: s2 over bytes 0-13, continuing from t1 (43_packet_codec.md R172). -/
def bindSum2 (mid : Vector Byte 4) (nch proto : Byte) : BitVec 16 :=
  stage2 (bindPacket mid nch proto (bindSum1 mid) 0)

/-- BBIND (43_packet_codec.md R172). -/
def execBbind (nch proto : Byte) (s : State) : Result :=
  done { s with txp := bindPacket s.mid nch proto (bindSum1 s.mid) (bindSum2 s.mid nch proto) }
    (bindSum1 s.mid ++ bindSum2 s.mid nch proto)

/-- ok of VBIND (43_packet_codec.md R174). -/
def vbindOk (matchId : Bool) (s : State) : Bool := bindOk s && (!matchId || idOk s)

/-- The VBIND response, bit 0 = ok up to bit 6 = cap (43_packet_codec.md R174). -/
def vbindData (capture matchId : Bool) (s : State) : Word :=
  0#25 ++ BitVec.ofBool (vbindOk matchId s && capture) ++ BitVec.ofBool (idOk s)
    ++ BitVec.ofBool (s2Ok s) ++ BitVec.ofBool (s1Ok s) ++ BitVec.ofBool (dblOk s)
    ++ BitVec.ofBool (lenOk s) ++ BitVec.ofBool (vbindOk matchId s)

/-- The capture of VBIND (43_packet_codec.md R174). -/
def captureBind (s : State) : State :=
  { s with
    mid := #v[~~~s.rxp[0], ~~~s.rxp[1], ~~~s.rxp[2], ~~~s.rxp[3]]
    bindNch := s.rxp[11]
    bindProto := s.rxp[12]
    tvalid := false }

/-- VBIND (43_packet_codec.md R174). -/
def execVbind (capture matchId : Bool) (s : State) : Result :=
  if vbindOk matchId s && capture then done (captureBind s) (vbindData capture matchId s)
  else done s (vbindData capture matchId s)

/-- Header byte 1 of BCMD (43_packet_codec.md R176), modulo 256. -/
def commandHeader1 (loss : Bool) (s : State) : Byte :=
  header1Base s + 1 + (if loss then 1 else 0)

/-- BCMD (43_packet_codec.md R176). -/
def execBcmd (loss : Bool) (len : BitVec 5) (s : State) : Result :=
  if 14 < len.toNat then fail s .badOperand
  else
    done { s with
      txp := Vector.ofFn fun i : Fin 16 =>
        if i.val = 0 then header0 s
        else if i.val = 1 then commandHeader1 loss s
        else if i.val - 2 < len.toNat then s.stg[i.val - 2]
        else 0 } (0#16 ++ commandHeader1 loss s ++ header0 s)

/-- The class code and loss bit of CLASS (43_packet_codec.md R178): 0 Unrecognized, 1 Bind,
2 DataPair, 3 CommandPair. -/
def classOf (s : State) : BitVec 2 × Bool :=
  if lenOk s = false then (0, false)
  else if bindOk s then (1, false)
  else if header0Match s && headerOffset s == 1 then (2, false)
  else if header0Match s && headerOffset s == 2 && s.clsPlus2 then (2, true)
  else if header0Match s && headerOffset s == 0 then (3, false)
  else (0, false)

/-- CLASS (43_packet_codec.md R178). -/
def execClassify (s : State) : Result :=
  done s (0#16 ++ headerOffset s ++ 0#3 ++ BitVec.ofBool (header0Match s)
    ++ BitVec.ofBool (lenOk s) ++ BitVec.ofBool (classOf s).2 ++ (classOf s).1)

end Sys2Proof.Machine
end

