-- ==== Sys2Proof/Machine/RegisterAccess.lean ====
section
/-! DEFINITION. NOP, CSRR, CSRW, BUFR, BUFW (40_register_access.md). -/

namespace Sys2Proof.Machine

open Sys2Proof

/-- NOP (40_register_access.md R110). -/
def execNop (s : State) : Result := done s 0

/-- CSRR (40_register_access.md R111). -/
def execCsrr (csr : BitVec 8) (s : State) : Result :=
  match csrAt csr with
  | none => fail s .badCsr
  | some c => done s ((csrRead s c).setWidth 32)

/-- CSRW (40_register_access.md R112). -/
def execCsrw (csr : BitVec 8) (value : BitVec 16) (s : State) : Result :=
  match csrAt csr with
  | none => fail s .badCsr
  | some c =>
    match csrWrite s c value with
    | .error e => fail s e
    | .ok t => done t 0

/-- BUFR (40_register_access.md R113). -/
def execBufr (win : Window) (idx : BitVec 5) (s : State) : Result :=
  match windowByte s win idx.toNat with
  | none => fail s .badOperand
  | some b => done s (b.setWidth 32)

/-- BUFW (40_register_access.md R114). -/
def execBufw (win : Window) (idx : BitVec 5) (byte : Byte) (s : State) : Result :=
  if win = .cht then fail s .readOnly
  else if 16 ≤ idx.toNat then fail s .badOperand
  else done (setWindowByte s win idx.toNat byte) 0

end Sys2Proof.Machine
end

