-- ==== Sys2Proof/Machine/StreamShuttle.lean ====
section
/-! DEFINITION. The ring-buffer stream shuttle: INS, EXT, RBQ, RBCLR (44_stream_shuttle.md). -/

namespace Sys2Proof.Machine

open Sys2Proof

/-- The INS response (44_stream_shuttle.md R200): bytes held after, and whether it inserted. -/
def insData (used : Nat) (ok : Bool) : Word :=
  0#4 ++ BitVec.ofNat 12 used ++ 0#15 ++ BitVec.ofBool ok

/-- INS (44_stream_shuttle.md R200). -/
def execIns (rb : Ring) (src : InsSource) (len : BitVec 5) (s : State) : Result :=
  if insertLimit src < len.toNat then fail s .badOperand
  else if len.toNat ≤ rbFree s rb then
    done (rbPush s rb (insertBytes s src len.toNat))
      (insData (rbUsed (rbPush s rb (insertBytes s src len.toNat)) rb) true)
  else done s (insData (rbUsed s rb) false)

/-- The leading zero bytes EXT discards (44_stream_shuttle.md R201): none in the unframed variant. -/
def zerosDiscarded (s : State) (rb : Ring) : Nat :=
  if s.framed rb then leadingZeros (rbHeld s rb) else 0

/-- The EXT response (44_stream_shuttle.md R201). -/
def extData (z k : Nat) : Word := 0#4 ++ BitVec.ofNat 12 z ++ 0#11 ++ BitVec.ofNat 5 k

/-- EXT after its discarded zeros (44_stream_shuttle.md R201): k = min(m, RbUsed) bytes into STG. -/
def takeBytes (rb : Ring) (m : Nat) (s : State) : State :=
  { rbDrop s rb (min m (rbUsed s rb)) with
    stg := Vector.ofFn fun i : Fin 16 =>
      if i.val < min m (rbUsed s rb) then rbPeek s rb i.val else s.stg[i] }

/-- EXT (44_stream_shuttle.md R201). -/
def execExt (rb : Ring) (max : BitVec 5) (s : State) : Result :=
  if 16 < max.toNat then fail s .badOperand
  else
    done (takeBytes rb max.toNat (rbDrop s rb (zerosDiscarded s rb)))
      (extData (zerosDiscarded s rb)
        (min max.toNat (rbUsed (rbDrop s rb (zerosDiscarded s rb)) rb)))

/-- RBQ (44_stream_shuttle.md R203). -/
def execRbq (rb : Ring) (s : State) : Result :=
  done s (0#10 ++ BitVec.ofBool (s.framed rb) ++ BitVec.ofBool (frameAvailable (rbHeld s rb))
    ++ frameLength (rbHeld s rb) ++ BitVec.ofNat 12 (rbUsed s rb))

/-- RBCLR (44_stream_shuttle.md R204): the storage is unchanged. -/
def execRbclr (rb : Ring) (s : State) : Result :=
  done (s.setRing rb { s.ring rb with inIdx := 0, outIdx := 0 }) 0

end Sys2Proof.Machine
end

