-- ==== Sys2Proof/Machine/Dispatch.lean ====
section
/-! DEFINITION. The dispatch of a command to its meaning, one arm per constructor of Instr. -/

namespace Sys2Proof.Machine

open Sys2Proof

def exec (i : Instr) (s : State) : Host.Outcome State Fault Refusal :=
  match i with
  | .nop => Sys2Proof.Machine.execNop s
  | .csrr csr => Sys2Proof.Machine.execCsrr csr s
  | .csrw csr value => Sys2Proof.Machine.execCsrw csr value s
  | .bufr win idx => Sys2Proof.Machine.execBufr win idx s
  | .bufw win idx byte => Sys2Proof.Machine.execBufw win idx byte s
  | .derive => Sys2Proof.Machine.execDerive s
  | .gentbl chA chB => Sys2Proof.Machine.execGentbl chA chB s
  | .hop => Sys2Proof.Machine.execHop s
  | .flip => Sys2Proof.Machine.execFlip s
  | .lookup src ch => Sys2Proof.Machine.execLookup src ch s
  | .pnrd row code k => Sys2Proof.Machine.execPnrd row code k s
  | .bbind nch proto => Sys2Proof.Machine.execBbind nch proto s
  | .vbind capture matchId => Sys2Proof.Machine.execVbind capture matchId s
  | .bcmd loss len => Sys2Proof.Machine.execBcmd loss len s
  | .classify => Sys2Proof.Machine.execClassify s
  | .ins rb src len => Sys2Proof.Machine.execIns rb src len s
  | .ext rb max => Sys2Proof.Machine.execExt rb max s
  | .rbq rb => Sys2Proof.Machine.execRbq rb s
  | .rbclr rb => Sys2Proof.Machine.execRbclr rb s

end Sys2Proof.Machine
end

