-- ==== Sys2Proof/Machine/Step.lean ====
section
/-! DEFINITION. One step: take one whole command from the port, decode it, execute it
(10_state.md R21). -/

namespace Sys2Proof.Machine

open Sys2Proof

/-- One step of the block (10_state.md R21, 30_encoding.md R93). With no command in the port the block
waits and holds its state (60_exceptions.md R242, 70_reset_and_hazards.md R261; log 1). -/
def step (s : State) : Host.Outcome State Fault Refusal :=
  match fetch s with
  | none => .next s
  | some (w, t) =>
    match decode w with
    | .error e => fail t (decodeErrCode e)
    | .ok i => exec i t

/-- The state in which the next step takes and runs the instruction whose bits are `w` (log 3). -/
def State.withFetchWord (s : State) (nbits w : Nat) : State :=
  deliverNext s (BitVec.ofNat 32 (w % 2 ^ nbits))

end Sys2Proof.Machine
end

