-- ==== Sys2Proof/Machine/Pseudo.lean ====
section
/-! DEFINITION. The pseudo-instructions and their expansions (30_encoding.md R92), and the execution of
a list of commands one after the other. -/

namespace Sys2Proof.Machine

open Sys2Proof

/-- `SETID v32` (30_encoding.md R92). -/
def setId (v : Word) : List Instr :=
  [.csrw 0x00 (v.extractLsb' 16 16), .csrw 0x01 (v.extractLsb' 0 16)]

/-- `BUFW win[i], b_i` for the bytes in order, from index `i` on. -/
def loadWindow (win : Window) : Nat → List Byte → List Instr
  | _, [] => []
  | i, b :: d => .bufw win (BitVec.ofNat 5 i) b :: loadWindow win (i + 1) d

/-- `LDRX b0, ..., b15` (30_encoding.md R92). -/
def loadRx (bytes : Vector Byte 16) : List Instr :=
  loadWindow .rxp 0 bytes.toList ++ [.csrw 0x0B 16]

/-- `LDSTG b0, ..., b(n-1)` (30_encoding.md R92), 1 ≤ n ≤ 16. -/
def loadStg (bytes : List Byte) : List Instr := loadWindow .stg 0 bytes

/-- `CLRERR` (30_encoding.md R92). -/
def clearErr : List Instr := [.csrw 0x09 0x7E]

/-- Execute commands in order; an error in one does not stop the following ones (30_encoding.md R92,
60_exceptions.md R232). -/
def execAll : List Instr → State → Result
  | [], s => .next s
  | i :: is, s =>
    match exec i s with
    | .next t => execAll is t
    | .fault f => .fault f
    | .refused r => .refused r

end Sys2Proof.Machine
end

