-- ==== Sys2Proof/Machine/Assembler.lean ====
section
/-! DEFINITION. The assembler syntax (30_encoding.md R91) and the assembling of the pseudo-instructions
(R92): from a line of text to its commands, and from a text to the words delivered to the port. -/

namespace Sys2Proof.Machine

open Sys2Proof

/-! ### Tokens -/

/-- A token of a line. -/
inductive Token where
  | word (s : String)
  | comma
  | leftBracket
  | rightBracket
deriving DecidableEq, Repr

/-- Names are case-insensitive (30_encoding.md R91), so letters are read as capitals. -/
def upperCase (c : Char) : Char :=
  if 'a'.toNat ≤ c.toNat ∧ c.toNat ≤ 'z'.toNat then Char.ofNat (c.toNat - 32) else c

/-- The word read so far (its letters in reverse), if any, in front of the following tokens. -/
def endWord (letters : List Char) (following : List Token) : List Token :=
  if letters = [] then following else .word (String.ofList letters.reverse) :: following

/-- The tokens of a line up to its comment (30_encoding.md R91: `;` starts a comment). -/
def tokens : List Char → List Char → List Token
  | letters, [] => endWord letters []
  | letters, c :: cs =>
    if c = ';' then endWord letters []
    else if c = ' ' ∨ c = '\t' ∨ c = '\r' then endWord letters (tokens [] cs)
    else if c = ',' then endWord letters (.comma :: tokens [] cs)
    else if c = '[' then endWord letters (.leftBracket :: tokens [] cs)
    else if c = ']' then endWord letters (.rightBracket :: tokens [] cs)
    else tokens (upperCase c :: letters) cs

/-! ### Operands -/

/-- An operand as written: a name or number, or a byte of a window. -/
inductive AsmOperand where
  | plain (s : String)
  | indexed (window index : String)
deriving DecidableEq, Repr

/-- The operands of a line, separated by commas. -/
def asmOperands : List Token → Option (List AsmOperand)
  | [.word w] => some [.plain w]
  | [.word w, .leftBracket, .word i, .rightBracket] => some [.indexed w i]
  | .word w :: .comma :: rest => (asmOperands rest).map (.plain w :: ·)
  | .word w :: .leftBracket :: .word i :: .rightBracket :: .comma :: rest =>
    (asmOperands rest).map (.indexed w i :: ·)
  | _ => none

/-- The value of a digit, letters being capitals. -/
def digitValue (c : Char) : Nat :=
  if '0'.toNat ≤ c.toNat ∧ c.toNat ≤ '9'.toNat then c.toNat - '0'.toNat
  else if 'A'.toNat ≤ c.toNat ∧ c.toNat ≤ 'F'.toNat then c.toNat - 'A'.toNat + 10
  else 16

/-- The number a sequence of digits stands for, after the digits read into `n`. -/
def digitsValue (base : Nat) : Nat → List Char → Option Nat
  | n, [] => some n
  | n, c :: cs => if digitValue c < base then digitsValue base (n * base + digitValue c) cs else none

/-- Numbers are decimal or `0x` hexadecimal (30_encoding.md R91). -/
def numberOf (s : String) : Option Nat :=
  match s.toList with
  | [] => none
  | '0' :: 'X' :: [] => none
  | '0' :: 'X' :: digits => digitsValue 16 0 digits
  | digits => digitsValue 10 0 digits

/-- A number operand of a field of `w` bits; a number that does not fit the field is no operand
(DESIGN CHOICE, log 19). -/
def fieldOf (w : Nat) (s : String) : Option (BitVec w) :=
  (numberOf s).bind fun n => if n < 2 ^ w then some (BitVec.ofNat w n) else none

/-- A CSR name, or a number (30_encoding.md R91). -/
def csrOperand (s : String) : Option (BitVec 8) :=
  match s with
  | "ID_HI" => some 0x00
  | "ID_LO" => some 0x01
  | "CFG" => some 0x02
  | "CODE" => some 0x03
  | "CRC_BASE" => some 0x04
  | "CRC_CUR" => some 0x05
  | "HOP_IDX" => some 0x06
  | "TBL" => some 0x07
  | "STATUS" => some 0x08
  | "ERR" => some 0x09
  | "BINDINFO" => some 0x0A
  | "RX_LEN" => some 0x0B
  | _ => fieldOf 8 s

/-- A window name (30_encoding.md R91). -/
def windowOperand (s : String) : Option Window :=
  match s with
  | "RXP" => some .rxp
  | "TXP" => some .txp
  | "STG" => some .stg
  | "CHT" => some .cht
  | _ => none

/-- A ring name (30_encoding.md R91). -/
def ringOperand (s : String) : Option Ring :=
  match s with
  | "H2R" => some .h2r
  | "R2H" => some .r2h
  | _ => none

/-- An insert source name (30_encoding.md R91). -/
def insSourceOperand (s : String) : Option InsSource :=
  match s with
  | "STG" => some .stg
  | "RXP" => some .rxpPayload
  | _ => none

/-- A code name (30_encoding.md R91). -/
def codeOperand (s : String) : Option CodeSelect :=
  match s with
  | "SOP" => some .sop
  | "DATA" => some .data
  | _ => none

/-- The loss bit of BCMD, written 0 or 1 (30_encoding.md R91). -/
def lossOperand (s : String) : Option Bool := (fieldOf 1 s).map flagOf

/-- Byte operands, each written as a number. -/
def byteOperands : List AsmOperand → Option (List Byte)
  | [] => some []
  | .plain s :: rest => (fieldOf 8 s).bind fun b => (byteOperands rest).map (b :: ·)
  | .indexed _ _ :: _ => none

/-! ### Lines -/

/-- The commands without operands, and the short forms of GENTBL and LOOKUP (30_encoding.md R91). -/
def assemble0 (mnemonic : String) : Option (List Instr) :=
  match mnemonic with
  | "NOP" => some [.nop]
  | "DERIVE" => some [.derive]
  | "HOP" => some [.hop]
  | "FLIP" => some [.flip]
  | "CLASS" => some [.classify]
  | "GENTBL" => some [.gentbl 0 0]
  | "LOOKUP" => some [.lookup .table 0]
  | "VBIND" => some [.vbind false false]
  | "VBIND.M" => some [.vbind false true]
  | "VBIND.C" => some [.vbind true false]
  | "VBIND.MC" => some [.vbind true true]
  | "CLRERR" => some clearErr
  | _ => none

/-- The commands with one plain operand (30_encoding.md R91, R92). -/
def assemble1 (mnemonic a : String) : Option (List Instr) :=
  match mnemonic with
  | "CSRR" => (csrOperand a).map fun c => [.csrr c]
  | "LOOKUP" => (fieldOf 7 a).map fun ch => [.lookup .operand ch]
  | "RBQ" => (ringOperand a).map fun r => [.rbq r]
  | "RBCLR" => (ringOperand a).map fun r => [.rbclr r]
  | "SETID" => (fieldOf 32 a).map setId
  | _ => none

/-- The commands with two plain operands (30_encoding.md R91). -/
def assemble2 (mnemonic a b : String) : Option (List Instr) :=
  match mnemonic with
  | "CSRW" => (csrOperand a).bind fun c => (fieldOf 16 b).map fun v => [.csrw c v]
  | "GENTBL" => (fieldOf 8 a).bind fun x => (fieldOf 8 b).map fun y => [.gentbl x y]
  | "BBIND" => (fieldOf 8 a).bind fun x => (fieldOf 8 b).map fun y => [.bbind x y]
  | "BCMD" => (lossOperand a).bind fun l => (fieldOf 5 b).map fun n => [.bcmd l n]
  | "EXT" => (ringOperand a).bind fun r => (fieldOf 5 b).map fun n => [.ext r n]
  | _ => none

/-- The commands with three plain operands (30_encoding.md R91). -/
def assemble3 (mnemonic a b c : String) : Option (List Instr) :=
  match mnemonic with
  | "PNRD" => (codeOperand a).bind fun w => (fieldOf 3 b).bind fun row =>
      (fieldOf 4 c).map fun k => [.pnrd row w k]
  | "INS" => (ringOperand a).bind fun r => (insSourceOperand b).bind fun src =>
      (fieldOf 5 c).map fun n => [.ins r src n]
  | _ => none

/-- BUFR win[idx] (30_encoding.md R91). -/
def assembleBufr (window index : String) : Option (List Instr) :=
  (windowOperand window).bind fun w => (fieldOf 5 index).map fun i => [.bufr w i]

/-- BUFW win[idx], byte (30_encoding.md R91). -/
def assembleBufw (window index byte : String) : Option (List Instr) :=
  (windowOperand window).bind fun w => (fieldOf 5 index).bind fun i =>
    (fieldOf 8 byte).map fun b => [.bufw w i b]

/-- LDRX of exactly 16 bytes (30_encoding.md R92). -/
def assembleLdrx (bytes : List Byte) : Option (List Instr) :=
  if h : bytes.length = 16 then some (loadRx ⟨bytes.toArray, by simpa using h⟩) else none

/-- LDSTG of 1 to 16 bytes (30_encoding.md R92). -/
def assembleLdstg (bytes : List Byte) : Option (List Instr) :=
  if 1 ≤ bytes.length ∧ bytes.length ≤ 16 then some (loadStg bytes) else none

/-- The commands of a mnemonic and its operands (30_encoding.md R91, R92). -/
def assembleCommand (mnemonic : String) (ops : List AsmOperand) : Option (List Instr) :=
  if mnemonic = "LDRX" then (byteOperands ops).bind assembleLdrx
  else if mnemonic = "LDSTG" then (byteOperands ops).bind assembleLdstg
  else
    match ops with
    | [] => assemble0 mnemonic
    | [.plain a] => assemble1 mnemonic a
    | [.plain a, .plain b] => assemble2 mnemonic a b
    | [.plain a, .plain b, .plain c] => assemble3 mnemonic a b c
    | [.indexed w i] => if mnemonic = "BUFR" then assembleBufr w i else none
    | [.indexed w i, .plain b] => if mnemonic = "BUFW" then assembleBufw w i b else none
    | _ => none

/-- The commands of one line (30_encoding.md R91): one command or pseudo-instruction, or none on a
line of blanks and comment; `none` where the line is no line of the syntax. -/
def assembleLine (line : List Char) : Option (List Instr) :=
  match tokens [] line with
  | [] => some []
  | [.word mnemonic] => assembleCommand mnemonic []
  | .word mnemonic :: rest => (asmOperands rest).bind (assembleCommand mnemonic)
  | _ => none

/-- The lines of a text, the line read so far in reverse. -/
def linesOf : List Char → List Char → List (List Char)
  | letters, [] => [letters.reverse]
  | letters, c :: cs => if c = '\n' then letters.reverse :: linesOf [] cs else linesOf (c :: letters) cs

/-- The commands of a text, line by line. -/
def assembleLines : List (List Char) → Option (List Instr)
  | [] => some []
  | line :: rest => (assembleLine line).bind fun is => (assembleLines rest).map (is ++ ·)

/-- The command words of an assembler text (30_encoding.md R91, R92), in the order they are delivered
to the port. -/
def assemble (text : String) : Option (List Word) :=
  (assembleLines (linesOf [] text.toList)).map fun is => is.map encode

end Sys2Proof.Machine
end

