-- ==== Sys2Proof/Machine/Port.lean ====
section
/-! DEFINITION. What the world outside the block does to it: clients submit commands and collect
responses (10_state.md R20), share the port in any order of whole commands (ARBITRATION, R21), and
the platform resets the block between commands (70_reset_and_hazards.md R260). -/

namespace Sys2Proof.Machine

open Sys2Proof

/-- What can happen at the block's one interface. -/
inductive PortEvent where
  /-- A client submits a command word (10_state.md R20). -/
  | submit (w : Word)
  /-- A client collects the oldest response (10_state.md R20, 30_encoding.md R89). -/
  | collect
  /-- The platform applies reset (70_reset_and_hazards.md R260). -/
  | reset
deriving DecidableEq, Repr

/-- Reset applied in state `s`: every element of 10_state.md R24 takes its reset value; the
parameters stay. Commands not yet taken and responses not yet collected are with the clients, not
state of R24, and stay (DESIGN CHOICE, log 11). -/
def platformReset (s : State) : State :=
  { State.resetWith s.params with port := s.port, responses := s.responses }

/-- The effect of a port event. -/
def portEvent (e : PortEvent) (s : State) : State :=
  match e with
  | .submit w => { s with port := s.port ++ [w] }
  | .collect => { s with responses := s.responses.drop 1 }
  | .reset => platformReset s

/-- ARBITRATION (00_scope.md R7): the order in which the port takes whole commands from several
clients. `schedule` names the client to serve next; a client with nothing to send is passed over.
Each taken word is tagged with its client. -/
def arbitrate : List Nat → List (List Word) → List (Nat × Word)
  | [], _ => []
  | c :: schedule, queues =>
    match queues[c]? with
    | some (w :: rest) => (c, w) :: arbitrate schedule (queues.set c rest)
    | _ => arbitrate schedule queues

/-- The port filled with the clients' commands in the order a schedule gives. -/
def submitAll (schedule : List Nat) (queues : List (List Word)) (s : State) : State :=
  { s with port := s.port ++ (arbitrate schedule queues).map Prod.snd }

end Sys2Proof.Machine
end

