-- ==== Sys2Proof/WellFormed.lean ====
section
/-! DEFINITION. What a well-formed command word is (the rows of spec/opcode_table.json, 30_encoding.md
R84-R86), and which operands of a command lie in the ranges its rule allows in every state
(30_encoding.md R83). -/

namespace Sys2Proof

/-- A row of spec/opcode_table.json: `mask` covers the opcode bits and the reserved bits of the row's
format, `pattern` is the opcode with the reserved bits zero (preamble of 30_encoding.md). -/
structure TableRow where
  mnemonic : String
  mask     : Word
  pattern  : Word
deriving DecidableEq, Repr

/-- spec/opcode_table.json, row by row. -/
def opcodeTable : List TableRow :=
  [⟨"NOP", 0xFFFFFFFF, 0x00000000⟩, ⟨"CSRR", 0xFF00FFFF, 0x01000000⟩,
   ⟨"CSRW", 0xFF000000, 0x02000000⟩, ⟨"BUFR", 0xFF20FFFF, 0x03000000⟩,
   ⟨"BUFW", 0xFF20FF00, 0x04000000⟩, ⟨"DERIVE", 0xFFFFFFFF, 0x10000000⟩,
   ⟨"GENTBL", 0xFFFF0000, 0x11000000⟩, ⟨"HOP", 0xFFFFFFFF, 0x12000000⟩,
   ⟨"FLIP", 0xFFFFFFFF, 0x13000000⟩, ⟨"LOOKUP", 0xFFFFFE80, 0x14000000⟩,
   ⟨"PNRD", 0xFFFFF8E0, 0x15000000⟩, ⟨"BBIND", 0xFFFF0000, 0x20000000⟩,
   ⟨"VBIND", 0xFFFFFFFC, 0x21000000⟩, ⟨"BCMD", 0xFFFFFEE0, 0x22000000⟩,
   ⟨"CLASS", 0xFFFFFFFF, 0x23000000⟩, ⟨"INS", 0xFFFEEFE0, 0x30000000⟩,
   ⟨"EXT", 0xFFFEFFE0, 0x31000000⟩, ⟨"RBQ", 0xFFFEFFFF, 0x32000000⟩,
   ⟨"RBCLR", 0xFFFEFFFF, 0x33000000⟩]

/-- A word belongs to a row when it has the row's opcode and no reserved bit set. -/
def TableRow.holds (r : TableRow) (w : Word) : Bool := w &&& r.mask == r.pattern

/-- Check 1 of a word (30_encoding.md R85): its opcode is defined. -/
def Word.opcodeDefined (w : Word) : Bool :=
  opcodeTable.any fun r => w.extractLsb' 24 8 == r.pattern.extractLsb' 24 8

/-- Check 2 of a word (30_encoding.md R86): no reserved bit of its opcode's format is set. -/
def Word.reservedZero (w : Word) : Bool :=
  opcodeTable.all fun r =>
    w.extractLsb' 24 8 != r.pattern.extractLsb' 24 8 || r.holds w

/-- A command word a decoder accepts (30_encoding.md R93). -/
def Word.wellFormed (w : Word) : Bool := w.opcodeDefined && w.reservedZero

/-- The operands lie in the ranges the command's rule allows, as far as that does not depend on the
state (30_encoding.md R83). A command that fails this is still a command: it is decoded and
executed, and ends with the error its rule names (40 R111-R114; 42 R156; 43 R176; 44 R200, R201). -/
def Instr.wellFormed : Instr → Bool
  | .csrr csr => csr.toNat ≤ 0x0B
  | .csrw csr value =>
      csr.toNat ≤ 0x0B && !(csr == 0x03 || csr == 0x04 || csr == 0x07 || csr == 0x08 || csr == 0x0A)
        && (csr != 0x0B || value.toNat ≤ 16)
  | .bufr win idx => (if win = .cht then idx.toNat < 23 else idx.toNat < 16)
  | .bufw win idx _ => win != .cht && idx.toNat < 16
  | .pnrd row code k => row.toNat ≤ 4 && (code != .sop || k.toNat ≤ 7)
  | .bcmd _ len => len.toNat ≤ 14
  | .ins _ src len => (if src = .stg then len.toNat ≤ 16 else len.toNat ≤ 14)
  | .ext _ max => max.toNat ≤ 16
  | .nop | .derive | .gentbl _ _ | .hop | .flip | .lookup _ _ | .bbind _ _ | .vbind _ _
  | .classify | .rbq _ | .rbclr _ => true

end Sys2Proof
end

