-- ==== Sys2Proof/Safety.lean ====
section
/-! DEFINITION. The terms claims are stated in: how a command ends, and the invariants of the block
(10_state.md R41; 20_memory.md R63, R68; 41_channel_sequencer.md R138). -/

namespace Sys2Proof.Machine

open Sys2Proof

/-! ### How a command ends -/

/-- The command ends with status OK and data `d`, in the state that is `u` except for the one response
appended (30_encoding.md R89; 00_scope.md R12). This fixes every field of the next state. -/
def EndsOk (i : Instr) (s u : State) (d : Word) : Prop :=
  exec i s = .next { u with responses := s.responses ++ [⟨.ok, d⟩] }

/-- ERR[n] within ERR[6:1], written out (10_state.md R33, 60_exceptions.md R230). -/
def errBit : ErrCode → BitVec 6
  | .illegalOpcode => 0b000001
  | .reservedNonzero => 0b000010
  | .badCsr => 0b000100
  | .readOnly => 0b001000
  | .noTable => 0b010000
  | .badOperand => 0b100000

/-- The state `s` after an error `e` (60_exceptions.md R232): data 0, ERR[n] set, nothing else. -/
def afterError (s : State) (e : ErrCode) : State :=
  { s with err := s.err ||| errBit e, responses := s.responses ++ [⟨.err e, 0⟩] }

/-- The command ends with error `e` (60_exceptions.md R232). -/
def EndsErr (i : Instr) (s : State) (e : ErrCode) : Prop := exec i s = .next (afterError s e)

/-! ### Invariants -/

/-- 10_state.md R41 (a), (b), (d), (e). -/
abbrev FieldInv (s : State) : Prop :=
  (s.tblLen = 0 ∨ s.tblLen = 2 ∨ s.tblLen = 23) ∧
  (s.tvalid = true → (s.tblLen = 2 ∨ s.tblLen = 23) ∧ s.hopIdx.toNat < s.tblLen.toNat) ∧
  s.rxLen.toNat ≤ 16 ∧
  (csrRead s .err).getLsbD 0 = false

/-- A ring is sound: its indices lie in the storage (10_state.md R40), its storage is in canonical
form within the capacity (log 6), and every held byte has been written (20_memory.md R63, R68). -/
abbrev RingInv (s : State) (r : Ring) : Prop :=
  (s.ring r).inIdx < s.params.rbCap ∧
  (s.ring r).outIdx < s.params.rbCap ∧
  Memory.wf (s.ring r).store = true ∧
  (∀ c ∈ (s.ring r).store, c.1 < s.params.rbCap) ∧
  (∀ i < rbUsed s r,
    (Memory.find (s.ring r).store (((s.ring r).outIdx + i) % s.params.rbCap)).isSome = true)

/-- Both rings are sound and RB_CAP is legal (00_scope.md R7). -/
abbrev RingsInv (s : State) : Prop := s.params.Legal ∧ RingInv s .h2r ∧ RingInv s .r2h

/-- A valid table belongs to the current MID and PROTO (10_state.md R32): in DSM2 mode it is a pair
GENTBL accepts, in DSMX mode it is dsmx_table(MID). -/
def TableInv (s : State) : Prop :=
  s.tvalid = true →
    match s.proto with
    | .dsm2 => s.tblLen = 2 ∧ pairRefused s.cht[0] s.cht[1] = false
    | .dsmx => s.tblLen = 23 ∧
        ∃ it, dsmxTable s.params s.mid = some (s.cht.toList.map BitVec.toNat, it)

/-- All invariants of the block. -/
def Inv (s : State) : Prop := FieldInv s ∧ RingsInv s ∧ TableInv s

/-- How many entries of a list of channels lie in [lo, hi]. -/
def countIn (lo hi : Nat) (l : List Nat) : Nat :=
  (l.filter fun c => decide (lo ≤ c) && decide (c ≤ hi)).length

/-! ### The rules' own arithmetic, over natural numbers -/

/-- sop_col as the number the formula of 42_code_selector.md R150 gives. -/
def sopNumber (s : State) : Nat := (s.mid[0].toNat + s.mid[1].toNat + s.mid[2].toNat + 2) % 8

/-- crc_base as a number (42_code_selector.md R152). -/
def seedNumber (s : State) : Nat := 0xFFFF - (256 * s.mid[0].toNat + s.mid[1].toNat)

/-- pn_row as a number (42_code_selector.md R151); (ch - 2) mod 5 = (ch + 3) mod 5. -/
def rowNumber (proto : Proto) (ch : Nat) : Nat := if proto = .dsm2 then ch % 5 else (ch + 3) % 5

/-- An id byte in a header, as a number (43_packet_codec.md R170). -/
def headerNumber (proto : Proto) (b : Byte) : Nat :=
  if proto = .dsm2 then 255 - b.toNat else b.toNat

/-- The exact sum of the bytes p[lo .. lo+n-1]. -/
def byteSum (p : Vector Byte 16) (lo n : Nat) : Nat :=
  (((p.toList.drop lo).take n).map BitVec.toNat).sum

/-- The stage-1 sum of 43_packet_codec.md R171, as a number. -/
def sum1 (p : Vector Byte 16) : Nat := 368 + byteSum p 0 8

/-- The stage-2 sum of 43_packet_codec.md R171, as a number. -/
def sum2 (p : Vector Byte 16) : Nat := sum1 p + byteSum p 8 6

/-- len_ok, dbl_ok, s1_ok, s2_ok of 43_packet_codec.md R173, R175 on the packet in RXP. -/
abbrev LenTest (s : State) : Prop := s.rxLen.toNat = 16
abbrev DblTest (s : State) : Prop := s.rxp.toList.take 4 = (s.rxp.toList.drop 4).take 4
abbrev S1Test (s : State) : Prop := 256 * s.rxp[8].toNat + s.rxp[9].toNat = sum1 s.rxp
abbrev S2Test (s : State) : Prop := 256 * s.rxp[14].toNat + s.rxp[15].toNat = sum2 s.rxp

/-- id_ok of 43_packet_codec.md R173. -/
abbrev IdTest (s : State) : Prop := s.rxp.toList.take 4 = s.mid.toList.map (~~~ ·)

/-- bind_ok of 43_packet_codec.md R173. -/
abbrev BindTest (s : State) : Prop := LenTest s ∧ DblTest s ∧ S1Test s ∧ S2Test s

/-- off of 43_packet_codec.md R177, as a number. -/
def offNumber (s : State) : Nat :=
  (s.rxp[1].toNat + 256 - headerNumber s.proto s.mid[3]) % 256

/-- h0_match of 43_packet_codec.md R177. -/
abbrev Header0Test (s : State) : Prop := s.rxp[0].toNat = headerNumber s.proto s.mid[2]

/-- 1 for true, 0 for false. -/
abbrev bit (p : Prop) [Decidable p] : Nat := if p then 1 else 0

/-- The generator word x_n (41_channel_sequencer.md R131), as a number. -/
def generatorWord (mid : Vector Byte 4) : Nat → Nat
  | 0 => 0xFFFFFFFF - (2 ^ 24 * mid[0].toNat + 2 ^ 16 * mid[1].toNat + 2 ^ 8 * mid[2].toNat
      + mid[3].toNat)
  | n + 1 => (generatorWord mid n * 0x0019660D + 0x3C6EF35F) % 2 ^ 32

/-- The partial table after n iterations (41_channel_sequencer.md R132-R135), as the fold of the
accepted candidates over the generator words. -/
def partialTable (params : Params) (mid : Vector Byte 4) : Nat → List Nat
  | 0 => []
  | n + 1 =>
    let s := partialTable params mid n
    let c := generatorWord mid (n + 1) / 256 % params.chMod.value + 3
    let p := match params.parityRef with
      | .inverted => generatorWord mid 0 % 2
      | .raw => mid[3].toNat % 2
    let full := (3 ≤ c ∧ c ≤ 27 ∧ countIn 3 27 s = 8) ∨ (28 ≤ c ∧ c ≤ 51 ∧ countIn 28 51 s = 7) ∨
      (52 ≤ c ∧ c ≤ 76 ∧ countIn 52 76 s = 8)
    if c % 2 ≠ p ∧ c ∉ s ∧ ¬ full then s ++ [c] else s

/-! ### What passes through a ring -/

/-- The bytes a command adds to ring r, going from s to t: as many of the bytes an INS takes as the
ring grew by (44_stream_shuttle.md R200). -/
def insertedBy (r : Ring) (i : Instr) (s t : State) : List Byte :=
  match i with
  | .ins rb src n =>
      if rb = r then (insertBytes s src n.toNat).take (rbUsed t r - rbUsed s r) else []
  | _ => []

/-- The bytes an unframed EXT of ring r returns, going from s to t: as many of the first bytes of STG
as the ring shrank by (44_stream_shuttle.md R201). -/
def returnedBy (r : Ring) (i : Instr) (s t : State) : List Byte :=
  match i with
  | .ext rb _ => if rb = r then t.stg.toList.take (rbUsed s r - rbUsed t r) else []
  | _ => []

/-- Execute commands in order, collecting the bytes added to ring r, the bytes returned from it, and
the last state. -/
def ringTrace (r : Ring) : List Instr → State → Option (List Byte × List Byte × State)
  | [], s => some ([], [], s)
  | i :: is, s =>
    match exec i s with
    | .next t =>
      (ringTrace r is t).map fun x =>
        (insertedBy r i s t ++ x.1, returnedBy r i s t ++ x.2.1, x.2.2)
    | _ => none

end Sys2Proof.Machine
end

