-- ==== Sys2Proof/Certificates/Slice0/Obligations.lean ====
section
/-! DEFINITION. The statements for the provers. Each docstring names the rule of spec/ it formalises.
`EndsOk i s u d` and `EndsErr i s e` (Safety.lean) fix every field of the next state, so a statement
with one of them as its conclusion is also that command's frame and its completion. -/

open Sys2Proof Sys2Proof.Machine

/-! ### Encoding -/

/-- Decoding the word of any command gives the command back (30_encoding.md R82, R93). -/
def Obligations.DecodeOfEncode : Prop := ∀ i : Instr, decode (encode i) = .ok i

/-- Every word the decoder accepts is the word of the command it reads (30_encoding.md R82, R93). -/
def Obligations.EncodeOfDecode : Prop := ∀ (w : Word) (i : Instr), decode w = .ok i → encode i = w

/-- The decoder accepts exactly the words that match a row of spec/opcode_table.json, reads the
matching row's command, and no word matches two rows (30_encoding.md, preamble, R84-R86, R93). -/
def Obligations.DecodeFollowsOpcodeTable : Prop :=
  (∀ w : Word, (∃ i, decode w = .ok i) ↔ ∃ r ∈ opcodeTable, r.holds w = true) ∧
  (∀ (w : Word) (i : Instr), decode w = .ok i →
    ∃ r ∈ opcodeTable, r.mnemonic = i.mnemonic ∧ r.holds w = true) ∧
  (∀ w : Word, w.wellFormed = true ↔ ∃ r ∈ opcodeTable, r.holds w = true) ∧
  opcodeTable.Pairwise (fun a b => ∀ w : Word, ¬ (a.holds w = true ∧ b.holds w = true))

/-- 30_encoding.md R85: the undefined opcodes raise ILLEGAL_OPCODE and have no other effect. -/
def Obligations.UndefinedOpcodesAreIllegal : Prop :=
  ∀ (s : State) (w : Word) (rest : List Word), s.port = w :: rest →
    (∀ op : Nat, op = (w.extractLsb' 24 8).toNat →
      (0x05 ≤ op ∧ op ≤ 0x0F) ∨ (0x16 ≤ op ∧ op ≤ 0x1F) ∨ (0x24 ≤ op ∧ op ≤ 0x2F) ∨ 0x34 ≤ op) →
    step s = .next (afterError { s with port := rest } .illegalOpcode)

/-- 30_encoding.md R86: a legal opcode with a reserved bit set raises RESERVED_NONZERO and has no other
effect; the pairs are the opcodes and the legal operand-bit masks of their formats, but for CSRW,
which has no reserved bit. -/
def Obligations.ReservedBitsAreRefused : Prop :=
  ∀ p ∈ [(0x00, 0x000000#24), (0x01, 0xFF0000#24), (0x03, 0xDF0000#24),
      (0x04, 0xDF00FF#24), (0x10, 0x000000#24), (0x11, 0x00FFFF#24), (0x12, 0x000000#24),
      (0x13, 0x000000#24), (0x14, 0x00017F#24), (0x15, 0x00071F#24), (0x20, 0x00FFFF#24),
      (0x21, 0x000003#24), (0x22, 0x00011F#24), (0x23, 0x000000#24), (0x30, 0x01101F#24),
      (0x31, 0x01001F#24), (0x32, 0x010000#24), (0x33, 0x010000#24)],
    ∀ (s : State) (w : Word) (rest : List Word), s.port = w :: rest →
      (w.extractLsb' 24 8).toNat = p.1 → w.extractLsb' 0 24 &&& ~~~p.2 ≠ 0 →
      step s = .next (afterError { s with port := rest } .reservedNonzero)

/-- The example words of 30_encoding.md R91. -/
def Obligations.ExampleWordsDecode : Prop :=
  decode 0x11000C28 = .ok (.gentbl 12 40) ∧
  decode 0x14000105 = .ok (.lookup .operand 5) ∧
  decode 0x04030012 = .ok (.bufw .rxp 3 0x12) ∧
  decode 0x3001100E = .ok (.ins .r2h .rxpPayload 14) ∧
  decode 0x0200F239 = .ok (.csrw 0x00 0xF239)

/-- The example lines of 30_encoding.md R91 and their words. -/
def Obligations.ExampleLinesAssemble : Prop :=
  assemble "GENTBL 12, 40" = some [0x11000C28] ∧
  assemble "LOOKUP 5" = some [0x14000105] ∧
  assemble "BUFW RXP[3], 0x12" = some [0x04030012] ∧
  assemble "INS R2H, RXP, 14" = some [0x3001100E] ∧
  assemble "CSRW ID_HI, 0xF239" = some [0x0200F239]

/-! ### The step and the whole machine -/

/-- 10_state.md R21: a step takes the next command from the port and executes it. -/
def Obligations.StepRunsDecodedCommand : Prop :=
  ∀ (s : State) (w : Word) (rest : List Word) (i : Instr),
    s.port = w :: rest → decode w = .ok i → step s = exec i { s with port := rest }

/-- 60_exceptions.md R242: between commands the block holds its state unchanged (log 1). -/
def Obligations.IdleStepHoldsState : Prop := ∀ s : State, s.port = [] → step s = .next s

/-- 10_state.md R43, 70_reset_and_hazards.md R260: the values after reset, at power-up with any
parameters or applied by the platform in any state, and the derived reads. -/
def Obligations.ResetLeavesStatedValues : Prop :=
  ∀ t : State, ((∃ p, t = State.resetWith p) ∨ ∃ s, t = portEvent .reset s) →
    t.mid = #v[0, 0, 0, 0] ∧ t.crcCur = 0 ∧ t.hopIdx = 0 ∧ t.tblLen = 0 ∧ t.tvalid = false ∧
    t.bindNch = 0 ∧ t.bindProto = 0 ∧ t.rxLen = 0 ∧
    (∀ b ∈ t.rxp.toList ++ t.txp.toList ++ t.stg.toList ++ t.cht.toList, b = 0) ∧
    (∀ r : Ring, (t.ring r).inIdx = 0 ∧ (t.ring r).outIdx = 0) ∧
    EndsOk (.csrr 0x02) t t 0x0002 ∧ EndsOk (.csrr 0x03) t t 0x002A ∧
    EndsOk (.csrr 0x04) t t 0xFFFF ∧ EndsOk (.csrr 0x08) t t 0x0002 ∧
    EndsOk (.csrr 0x09) t t 0x0000

/-- Every command, on every state, ends in a next state: "Nothing in the core is fatal"
(60_exceptions.md, preamble; R236). For GENTBL this is the termination of 41_channel_sequencer.md
R136. -/
def Obligations.EveryCommandAnswers : Prop :=
  (∀ (i : Instr) (s : State), ∃ t, exec i s = .next t) ∧ ∀ s : State, ∃ t, step s = .next t

/-- 30_encoding.md R89: every command taken produces exactly one response, in command order, with
data 0 on an error and a status of 0 to 6. -/
def Obligations.OneResponsePerCommand : Prop :=
  ∀ (s t : State) (w : Word) (rest : List Word), s.port = w :: rest → step s = .next t →
    t.port = rest ∧ ∃ r : Response, t.responses = s.responses ++ [r] ∧
      (r.status ≠ .ok → r.data = 0) ∧ (statusBits r.status).toNat ≤ 6 ∧
      ((statusBits r.status).toNat = 0 ↔ r.status = .ok)

/-- 60_exceptions.md R232: a command that ends with an error returns data 0, sets its ERR bit and
changes no other state. -/
def Obligations.ErrorsArePrecise : Prop :=
  ∀ (s t : State) (w : Word) (rest : List Word) (e : ErrCode) (d : Word),
    s.port = w :: rest → step s = .next t → t.responses = s.responses ++ [⟨.err e, d⟩] →
    d = 0 ∧ t = { s with
      port := rest, err := s.err ||| errBit e, responses := s.responses ++ [⟨.err e, 0⟩] }

/-- 60_exceptions.md R233: an ERR bit once set stays set through any command but a CSRW ERR with that
bit 1, which clears it, as reset does; setting an already-set bit has no further effect. -/
def Obligations.ErrBitsAreSticky : Prop :=
  (∀ (s t : State) (n : Nat), step s = .next t → s.err.getLsbD n = true →
    t.err.getLsbD n = true ∨
    ∃ w rest v, s.port = w :: rest ∧ decode w = .ok (.csrw 0x09 v) ∧ v.getLsbD (n + 1) = true) ∧
  (∀ (s t : State) (v : BitVec 16) (n : Nat), exec (.csrw 0x09 v) s = .next t →
    v.getLsbD (n + 1) = true → t.err.getLsbD n = false) ∧
  (∀ s : State, (portEvent .reset s).err = 0) ∧
  (∀ (s : State) (e : ErrCode), s.err &&& errBit e ≠ 0 → (afterError s e).err = s.err)

/-- 10_state.md R41 (a), (b), (d), (e): every step keeps the field invariants. -/
def Obligations.StepKeepsFieldInv : Prop :=
  ∀ s t : State, FieldInv s → step s = .next t → FieldInv t

/-- 10_state.md R41 (c), R40; 20_memory.md R63, R68: every step keeps the rings sound, with at most
RB_CAP - 1 bytes held. The canonical form of the storage is the model's (log 6). -/
def Obligations.StepKeepsRingsInv : Prop :=
  ∀ s t : State, RingsInv s → step s = .next t →
    RingsInv t ∧ ∀ r : Ring, rbUsed t r ≤ t.params.rbCap - 1

/-- 10_state.md R32: every step keeps a valid table the table of the current MID and PROTO. -/
def Obligations.StepKeepsTableInv : Prop :=
  ∀ s t : State, TableInv s → step s = .next t → TableInv t

/-- The invariants hold after reset, for every legal parameter value (10_state.md R41, R43; the
canonical form of the storage is the model's, log 6). -/
def Obligations.ResetMeetsInv : Prop :=
  (∀ p : Params, p.Legal → Inv (State.resetWith p)) ∧ Inv State.reset

/-- What clients and the platform do at the port keeps the invariants (10_state.md R20;
70_reset_and_hazards.md R260; the queues of the port are the model's, logs 1, 2 and 11). -/
def Obligations.PortEventsKeepInv : Prop :=
  ∀ (e : PortEvent) (s : State), Inv s → Inv (portEvent e s)

/-- 41_channel_sequencer.md R138: the properties of a valid table. -/
def Obligations.ValidTableProperties : Prop :=
  (∀ s : State, TableInv s → s.tvalid = true →
    (s.tblLen = 2 ∨ s.tblLen = 23) ∧
    (s.tblLen = 23 →
      (s.cht.toList.map BitVec.toNat).Nodup ∧
      (∀ b ∈ s.cht.toList, 3 ≤ b.toNat ∧ b.toNat ≤ s.params.chMod.value + 2 ∧ b.toNat ≤ 76) ∧
      countIn 3 27 (s.cht.toList.map BitVec.toNat) = 8 ∧
      countIn 28 51 (s.cht.toList.map BitVec.toNat) = 7 ∧
      countIn 52 76 (s.cht.toList.map BitVec.toNat) = 8) ∧
    (s.tblLen = 2 → s.cht[0] ≠ s.cht[1] ∧ 3 ≤ s.cht[0].toNat ∧ s.cht[0].toNat ≤ 76 ∧
      3 ≤ s.cht[1].toNat ∧ s.cht[1].toNat ≤ 76)) ∧
  (∀ s t : State, TableInv s → TableInv t → s.tvalid = true → t.tvalid = true →
    s.tblLen = 23 → t.tblLen = 23 → s.mid = t.mid → s.params.chMod = t.params.chMod →
    s.params.parityRef = t.params.parityRef → s.cht = t.cht)

/-- Which commands may change which state (10_state.md R25-R40; the "State written" clauses of the
command rules). -/
def Obligations.OnlyTheseCommandsWrite : Prop :=
  ∀ (i : Instr) (s t : State), exec i s = .next t →
    t.params = s.params ∧ t.port = s.port ∧
    (t.mid ≠ s.mid → (∃ v, i = .csrw 0x00 v) ∨ (∃ v, i = .csrw 0x01 v) ∨ ∃ m, i = .vbind true m) ∧
    (t.proto ≠ s.proto ∨ t.clsPlus2 ≠ s.clsPlus2 ∨ t.frm0 ≠ s.frm0 ∨ t.frm1 ≠ s.frm1 →
      ∃ v, i = .csrw 0x02 v) ∧
    (t.crcCur ≠ s.crcCur → (∃ v, i = .csrw 0x05 v) ∨ i = .derive ∨ i = .hop ∨ i = .flip) ∧
    (t.hopIdx ≠ s.hopIdx → (∃ v, i = .csrw 0x06 v) ∨ i = .derive ∨ i = .hop ∨
      ∃ a b, i = .gentbl a b) ∧
    (t.tblLen ≠ s.tblLen ∨ t.cht ≠ s.cht → ∃ a b, i = .gentbl a b) ∧
    (t.bindNch ≠ s.bindNch ∨ t.bindProto ≠ s.bindProto → ∃ m, i = .vbind true m) ∧
    (t.rxLen ≠ s.rxLen → ∃ v, i = .csrw 0x0B v) ∧
    (t.rxp ≠ s.rxp → ∃ k b, i = .bufw .rxp k b) ∧
    (t.txp ≠ s.txp → (∃ k b, i = .bufw .txp k b) ∨ (∃ n p, i = .bbind n p) ∨
      ∃ l n, i = .bcmd l n) ∧
    (t.stg ≠ s.stg → (∃ k b, i = .bufw .stg k b) ∨ ∃ r m, i = .ext r m) ∧
    (∀ r : Ring, t.ring r ≠ s.ring r →
      (∃ src n, i = .ins r src n) ∨ (∃ m, i = .ext r m) ∨ i = .rbclr r)

/-- 10_state.md R25, R32; 70_reset_and_hazards.md R263: a change of MID or PROTO leaves TVALID 0, a
CSRW of ID_HI or ID_LO always does, and only GENTBL sets TVALID. -/
def Obligations.TableInvalidation : Prop :=
  ∀ (i : Instr) (s t : State), exec i s = .next t →
    (t.mid ≠ s.mid ∨ t.proto ≠ s.proto → t.tvalid = false) ∧
    (∀ v, i = .csrw 0x00 v ∨ i = .csrw 0x01 v → t.tvalid = false) ∧
    (s.tvalid = false → t.tvalid = true → ∃ a b, i = .gentbl a b)

/-- 20_memory.md R72: the reading commands have no side effect but the response and, if they fail, an
ERR bit. -/
def Obligations.ReadsHaveNoSideEffect : Prop :=
  ∀ (i : Instr) (s t : State),
    ((∃ c, i = .csrr c) ∨ (∃ w k, i = .bufr w k) ∨ (∃ r, i = .rbq r) ∨ (∃ c ch, i = .lookup c ch) ∨
      (∃ row c k, i = .pnrd row c k) ∨ i = .classify ∨ i = .nop ∨ ∃ m, i = .vbind false m) →
    exec i s = .next t →
    (∃ d, t = { s with responses := s.responses ++ [⟨.ok, d⟩] }) ∨ ∃ e, t = afterError s e

/-- 30_encoding.md R83: a command with an operand outside its state-independent range ends with an
error in every state; one within it ends with status OK wherever the state conditions hold (a valid
table for HOP, LOOKUP of the table and CSRW HOP_IDX, an index within the table, a legal DSM2 pair). -/
def Obligations.OperandRangesDecideStatus : Prop :=
  (∀ (i : Instr) (s : State), i.wellFormed = false → ∃ e, EndsErr i s e) ∧
  (∀ (i : Instr) (s : State), i.wellFormed = true →
    (i = .hop ∨ (∃ ch, i = .lookup .table ch) → s.tvalid = true) →
    (∀ v, i = .csrw 0x06 v → s.tvalid = true ∧ v.toNat < s.tblLen.toNat) →
    (∀ a b, i = .gentbl a b → s.proto = .dsm2 →
      3 ≤ a.toNat ∧ a.toNat ≤ 76 ∧ 3 ≤ b.toNat ∧ b.toNat ≤ 76 ∧ a ≠ b) →
    ∃ u d, EndsOk i s u d)

/-- 20_memory.md R74, 10_state.md R21: whatever the arbitration, the port takes each client's commands
whole and in that client's order. -/
def Obligations.ArbitrationKeepsClientOrder : Prop :=
  ∀ (schedule : List Nat) (queues : List (List Word)) (k : Nat),
    ((arbitrate schedule queues).filter fun x => x.1 == k).map Prod.snd <+: (queues[k]?).getD []

/-! ### Register and window access -/

/-- 40_register_access.md R110: NOP does nothing, and with a nonzero operand bit raises
RESERVED_NONZERO. -/
def Obligations.NopDoesNothing : Prop :=
  (∀ s : State, EndsOk .nop s s 0) ∧
  (∀ (s : State) (w : Word) (rest : List Word), s.port = w :: rest →
    (w.extractLsb' 24 8).toNat = 0x00 → w ≠ 0 →
    step s = .next (afterError { s with port := rest } .reservedNonzero))

/-- 40_register_access.md R111 with 10_state.md R26-R37: what CSRR of each CSR returns, and BAD_CSR. -/
def Obligations.CsrrReturnsReadValue : Prop :=
  ∀ s : State,
    EndsOk (.csrr 0x00) s s (BitVec.ofNat 32 (256 * s.mid[0].toNat + s.mid[1].toNat)) ∧
    EndsOk (.csrr 0x01) s s (BitVec.ofNat 32 (256 * s.mid[2].toNat + s.mid[3].toNat)) ∧
    EndsOk (.csrr 0x02) s s (BitVec.ofNat 32 (bit (s.proto = .dsmx) + 2 * bit (s.clsPlus2 = true)
      + 4 * bit (s.frm0 = true) + 8 * bit (s.frm1 = true))) ∧
    EndsOk (.csrr 0x03) s s (BitVec.ofNat 32 (sopNumber s + 8 * (7 - sopNumber s))) ∧
    EndsOk (.csrr 0x04) s s (BitVec.ofNat 32 (seedNumber s)) ∧
    EndsOk (.csrr 0x05) s s (BitVec.ofNat 32 s.crcCur.toNat) ∧
    EndsOk (.csrr 0x06) s s (BitVec.ofNat 32 s.hopIdx.toNat) ∧
    EndsOk (.csrr 0x07) s s (BitVec.ofNat 32 (s.tblLen.toNat + 256 * bit (s.tvalid = true))) ∧
    EndsOk (.csrr 0x08) s s (BitVec.ofNat 32 (bit (s.crcCur.toNat = seedNumber s)
      + 2 * bit (s.crcCur.toNat = 0xFFFF - seedNumber s))) ∧
    EndsOk (.csrr 0x09) s s (BitVec.ofNat 32 (2 * s.err.toNat)) ∧
    EndsOk (.csrr 0x0A) s s (BitVec.ofNat 32 (256 * s.bindNch.toNat + s.bindProto.toNat)) ∧
    EndsOk (.csrr 0x0B) s s (BitVec.ofNat 32 s.rxLen.toNat) ∧
    ∀ a : BitVec 8, 0x0B < a.toNat → EndsErr (.csrr a) s .badCsr

/-- 40_register_access.md R112 with 10_state.md R26-R37: what CSRW of each CSR does, and its errors in
their order. -/
def Obligations.CsrwPerformsWrite : Prop :=
  ∀ (s : State) (v : BitVec 16),
    EndsOk (.csrw 0x00 v) s { s with
      mid := #v[BitVec.ofNat 8 (v.toNat / 256), BitVec.ofNat 8 v.toNat, s.mid[2], s.mid[3]]
      tvalid := false } 0 ∧
    EndsOk (.csrw 0x01 v) s { s with
      mid := #v[s.mid[0], s.mid[1], BitVec.ofNat 8 (v.toNat / 256), BitVec.ofNat 8 v.toNat]
      tvalid := false } 0 ∧
    (∀ p : Proto, p = (if v.toNat % 2 = 1 then .dsmx else .dsm2) →
      EndsOk (.csrw 0x02 v) s { s with
        proto := p
        tvalid := s.tvalid && decide (p = s.proto)
        clsPlus2 := decide (v.toNat / 2 % 2 = 1)
        frm0 := decide (v.toNat / 4 % 2 = 1)
        frm1 := decide (v.toNat / 8 % 2 = 1) } 0) ∧
    EndsOk (.csrw 0x05 v) s { s with crcCur := v } 0 ∧
    (s.tvalid = false → EndsErr (.csrw 0x06 v) s .noTable) ∧
    (s.tvalid = true → s.tblLen.toNat ≤ v.toNat → EndsErr (.csrw 0x06 v) s .badOperand) ∧
    (s.tvalid = true → v.toNat < s.tblLen.toNat →
      EndsOk (.csrw 0x06 v) s { s with hopIdx := BitVec.ofNat 5 v.toNat } 0) ∧
    EndsOk (.csrw 0x09 v) s { s with err := s.err &&& ~~~(BitVec.ofNat 6 (v.toNat / 2)) } 0 ∧
    (16 < v.toNat → EndsErr (.csrw 0x0B v) s .badOperand) ∧
    (v.toNat ≤ 16 → EndsOk (.csrw 0x0B v) s { s with rxLen := BitVec.ofNat 5 v.toNat } 0) ∧
    (∀ a ∈ [0x03#8, 0x04#8, 0x07#8, 0x08#8, 0x0A#8], EndsErr (.csrw a v) s .readOnly) ∧
    ∀ a : BitVec 8, 0x0B < a.toNat → EndsErr (.csrw a v) s .badCsr

/-- 40_register_access.md R113 with 20_memory.md R62: BUFR of each window. -/
def Obligations.BufrReadsWindow : Prop :=
  ∀ (s : State) (k : BitVec 5),
    (∀ h : k.toNat < 16,
      EndsOk (.bufr .rxp k) s s (BitVec.ofNat 32 (s.rxp[k.toNat].toNat)) ∧
      EndsOk (.bufr .txp k) s s (BitVec.ofNat 32 (s.txp[k.toNat].toNat)) ∧
      EndsOk (.bufr .stg k) s s (BitVec.ofNat 32 (s.stg[k.toNat].toNat))) ∧
    (∀ h : k.toNat < 23, EndsOk (.bufr .cht k) s s (BitVec.ofNat 32 (s.cht[k.toNat].toNat))) ∧
    (16 ≤ k.toNat → ∀ w, w ≠ .cht → EndsErr (.bufr w k) s .badOperand) ∧
    (23 ≤ k.toNat → EndsErr (.bufr .cht k) s .badOperand)

/-- 40_register_access.md R114 with 20_memory.md R62: BUFW of each window; CHT is checked first. -/
def Obligations.BufwWritesWindow : Prop :=
  ∀ (s : State) (k : BitVec 5) (b : Byte),
    (∀ h : k.toNat < 16,
      EndsOk (.bufw .rxp k b) s { s with rxp := s.rxp.set k.toNat b } 0 ∧
      EndsOk (.bufw .txp k b) s { s with txp := s.txp.set k.toNat b } 0 ∧
      EndsOk (.bufw .stg k b) s { s with stg := s.stg.set k.toNat b } 0) ∧
    (16 ≤ k.toNat → ∀ w, w ≠ .cht → EndsErr (.bufw w k b) s .badOperand) ∧
    EndsErr (.bufw .cht k b) s .readOnly

/-- 30_encoding.md R92: what the expansions of SETID, LDRX, LDSTG and CLRERR do. -/
def Obligations.PseudoInstructionsDo : Prop :=
  (∀ (s : State) (v : Word), ∃ t, execAll (setId v) s = .next t ∧
    t.mid = #v[v.extractLsb' 24 8, v.extractLsb' 16 8, v.extractLsb' 8 8, v.extractLsb' 0 8] ∧
    t.tvalid = false ∧
    { t with mid := s.mid, tvalid := s.tvalid, responses := s.responses } = s) ∧
  (∀ (s : State) (p : Vector Byte 16), ∃ t, execAll (loadRx p) s = .next t ∧
    t.rxp = p ∧ t.rxLen = 16 ∧
    { t with rxp := s.rxp, rxLen := s.rxLen, responses := s.responses } = s) ∧
  (∀ (s : State) (d : List Byte), d.length ≤ 16 → ∃ t, execAll (loadStg d) s = .next t ∧
    t.stg.toList = d ++ s.stg.toList.drop d.length ∧
    { t with stg := s.stg, responses := s.responses } = s) ∧
  (∀ s : State, ∃ t, execAll clearErr s = .next t ∧ t.err = 0 ∧
    { t with err := s.err, responses := s.responses } = s)

/-! ### Channel sequencer -/

/-- 41_channel_sequencer.md R130 in DSM2 mode: the pair is loaded, or refused with BAD_OPERAND. -/
def Obligations.GentblLoadsDsm2Pair : Prop :=
  ∀ (s : State) (a b : Byte), s.proto = .dsm2 →
    (3 ≤ a.toNat → a.toNat ≤ 76 → 3 ≤ b.toNat → b.toNat ≤ 76 → a ≠ b →
      EndsOk (.gentbl a b) s { s with
        cht := (s.cht.set 0 a).set 1 b, tblLen := 2, tvalid := true, hopIdx := 0 } 0x00000002) ∧
    (a.toNat < 3 ∨ 76 < a.toNat ∨ b.toNat < 3 ∨ 76 < b.toNat ∨ a = b →
      EndsErr (.gentbl a b) s .badOperand)

/-- 41_channel_sequencer.md R130, R135, R136 in DSMX mode: in every state and whatever the operands,
the generator fills the table within 2^32 iterations and GENTBL stores it. -/
def Obligations.GentblGeneratesDsmxTable : Prop :=
  ∀ (s : State) (a b : Byte), s.proto = .dsmx →
    ∃ (l : List Nat) (it : Nat) (cht : Vector Byte 23),
      dsmxTable s.params s.mid = some (l, it) ∧ it ≤ 2 ^ 32 ∧ cht.toList.map BitVec.toNat = l ∧
      EndsOk (.gentbl a b) s
        { s with cht := cht, tblLen := 23, tvalid := true, hopIdx := 0 }
        (BitVec.ofNat 32 (256 * min it 0xFFFFFF + 23))

/-- 41_channel_sequencer.md R131-R135: dsmx_table is the fold of the accepted candidates over the
generator words, stopped at the first iteration at which it has 23 entries. -/
def Obligations.DsmxTableIsTheFold : Prop :=
  ∀ (p : Params) (mid : Vector Byte 4) (l : List Nat) (it : Nat),
    dsmxTable p mid = some (l, it) →
      l = partialTable p mid it ∧ l.length = 23 ∧
      ∀ n < it, (partialTable p mid n).length < 23

/-- 41_channel_sequencer.md R137: HOP, and NO_TABLE without a valid table. FieldInv rules out the
states, which no run reaches, where TBL_LEN or HOP_IDX lie outside the table (logs 7, 8). -/
def Obligations.HopAdvances : Prop :=
  ∀ s : State,
    (s.tvalid = false → EndsErr .hop s .noTable) ∧
    (s.tvalid = true → FieldInv s →
      ∃ c : Byte, s.cht[(s.hopIdx.toNat + 1) % s.tblLen.toNat]? = some c ∧
        EndsOk .hop s { s with
          hopIdx := BitVec.ofNat 5 ((s.hopIdx.toNat + 1) % s.tblLen.toNat)
          crcCur := BitVec.ofNat 16 (0xFFFF - s.crcCur.toNat) }
          (BitVec.ofNat 32 (65536 * (0xFFFF - s.crcCur.toNat)
            + 256 * ((s.hopIdx.toNat + 1) % s.tblLen.toNat) + c.toNat)))

/-- 41_channel_sequencer.md R137, 70_reset_and_hazards.md R264: n hops move the index by n modulo
TBL_LEN and complement the seed n times, and change nothing else. -/
def Obligations.HopsCycle : Prop :=
  ∀ (n : Nat) (s : State), s.tvalid = true → FieldInv s →
    ∃ t, execAll (List.replicate n .hop) s = .next t ∧
      t.hopIdx.toNat = (s.hopIdx.toNat + n) % s.tblLen.toNat ∧
      t.crcCur = (if n % 2 = 0 then s.crcCur else ~~~s.crcCur) ∧
      t.responses.length = s.responses.length + n ∧
      { t with hopIdx := s.hopIdx, crcCur := s.crcCur, responses := s.responses } = s

/-! ### Code selector -/

/-- 42_code_selector.md R157: the columns sum to 7 and the row is at most 4. -/
def Obligations.SelectorProperties : Prop :=
  (∀ mid : Vector Byte 4, (sopCol mid).toNat + (dataCol mid).toNat = 7 ∧
    (sopCol mid).toNat ≤ 7 ∧ (dataCol mid).toNat ≤ 7) ∧
  ∀ (proto : Proto) (ch : Nat), (pnRow proto ch).toNat ≤ 4

/-- 42_code_selector.md R153 with R150, R152. -/
def Obligations.DeriveSetsSeed : Prop :=
  ∀ s : State, EndsOk .derive s
    { s with crcCur := BitVec.ofNat 16 (seedNumber s), hopIdx := 0 }
    (BitVec.ofNat 32 (524288 * (7 - sopNumber s) + 65536 * sopNumber s + seedNumber s))

/-- 42_code_selector.md R154: FLIP, and two FLIPs restore the seed. -/
def Obligations.FlipInvertsSeed : Prop :=
  ∀ s : State,
    EndsOk .flip s { s with crcCur := BitVec.ofNat 16 (0xFFFF - s.crcCur.toNat) }
      (BitVec.ofNat 32 (0xFFFF - s.crcCur.toNat)) ∧
    ∃ t, execAll [.flip, .flip] s = .next t ∧ { t with responses := s.responses } = s

/-- 42_code_selector.md R155 with R150, R151: LOOKUP of an operand channel in every state, of the
table's channel, and NO_TABLE. -/
def Obligations.LookupReturnsParameters : Prop :=
  ∀ (s : State) (ch : BitVec 7),
    EndsOk (.lookup .operand ch) s s (BitVec.ofNat 32 (536870912 * (7 - sopNumber s)
      + 67108864 * sopNumber s + 8388608 * rowNumber s.proto ch.toNat + 65536 * ch.toNat
      + s.crcCur.toNat)) ∧
    (s.tvalid = false → EndsErr (.lookup .table ch) s .noTable) ∧
    (s.tvalid = true → FieldInv s → TableInv s →
      ∃ c : Byte, s.cht[s.hopIdx.toNat]? = some c ∧ 3 ≤ c.toNat ∧ c.toNat ≤ 76 ∧
        EndsOk (.lookup .table ch) s s (BitVec.ofNat 32 (536870912 * (7 - sopNumber s)
          + 67108864 * sopNumber s + 8388608 * rowNumber s.proto c.toNat + 65536 * c.toNat
          + s.crcCur.toNat)))

/-- 42_code_selector.md R156: PNRD of both codes and its errors. -/
def Obligations.PnrdReadsCode : Prop :=
  ∀ (s : State) (row : BitVec 3) (k : BitVec 4),
    (4 < row.toNat → ∀ c, EndsErr (.pnrd row c k) s .badOperand) ∧
    (row.toNat ≤ 4 → 7 < k.toNat → EndsErr (.pnrd row .sop k) s .badOperand) ∧
    (∀ (hr : row.toNat < 5) (hk : k.toNat < 8) (hc : sopNumber s < 9),
      EndsOk (.pnrd row .sop k) s s
        (BitVec.ofNat 32 (s.params.pnRom[row.toNat][sopNumber s][k.toNat].toNat))) ∧
    (∀ (hr : row.toNat < 5) (hc : 7 - sopNumber s + k.toNat / 8 < 9),
      EndsOk (.pnrd row .data k) s s
        (BitVec.ofNat 32
          (s.params.pnRom[row.toNat][7 - sopNumber s + k.toNat / 8][k.toNat % 8].toNat))) ∧
    sopNumber s < 9 ∧ 7 - sopNumber s + k.toNat / 8 < 9

/-! ### Packet codec -/

/-- 43_packet_codec.md R171: the stage sums; the reduction mod 2^16 never changes a result. -/
def Obligations.ChecksumSums : Prop :=
  ∀ p : Vector Byte 16,
    (stage1 p).toNat = 368 + byteSum p 0 8 ∧ (stage1 p).toNat ≤ 2408 ∧
    (stage2 p).toNat = (stage1 p).toNat + byteSum p 8 6 ∧ (stage2 p).toNat ≤ 3938

/-- 43_packet_codec.md R172 with R171: the packet BBIND builds, byte by byte. -/
def Obligations.BbindBuildsPacket : Prop :=
  ∀ (s : State) (nch proto : Byte) (t1 t2 : Nat),
    t1 = 368 + 2 * ((255 - s.mid[0].toNat) + (255 - s.mid[1].toNat) + (255 - s.mid[2].toNat)
      + (255 - s.mid[3].toNat)) →
    t2 = t1 + t1 / 256 + t1 % 256 + 1 + nch.toNat + proto.toNat →
    EndsOk (.bbind nch proto) s { s with
      txp := #v[~~~s.mid[0], ~~~s.mid[1], ~~~s.mid[2], ~~~s.mid[3],
        ~~~s.mid[0], ~~~s.mid[1], ~~~s.mid[2], ~~~s.mid[3],
        BitVec.ofNat 8 (t1 / 256), BitVec.ofNat 8 t1, 0x01, nch, proto, 0x00,
        BitVec.ofNat 8 (t2 / 256), BitVec.ofNat 8 t2] } (BitVec.ofNat 32 (65536 * t1 + t2))

/-- 43_packet_codec.md R174 with R173, R175: what VBIND reports and captures. -/
def Obligations.VbindReportsAndCaptures : Prop :=
  ∀ (s : State) (c m : Bool) (ok cap : Prop) [Decidable ok] [Decidable cap],
    (ok ↔ BindTest s ∧ (m = true → IdTest s)) → (cap ↔ ok ∧ c = true) →
    EndsOk (.vbind c m) s
      (if cap then { s with
        mid := #v[~~~s.rxp[0], ~~~s.rxp[1], ~~~s.rxp[2], ~~~s.rxp[3]]
        bindNch := s.rxp[11], bindProto := s.rxp[12], tvalid := false } else s)
      (BitVec.ofNat 32 (bit ok + 2 * bit (LenTest s) + 4 * bit (DblTest s) + 8 * bit (S1Test s)
        + 16 * bit (S2Test s) + 32 * bit (IdTest s) + 64 * bit cap))

/-- 43_packet_codec.md R179 (a): a packet BBIND built verifies, with every test bit set, and a capture
of it gives back MID, the channel count and the protocol id. -/
def Obligations.BindRoundTrip : Prop :=
  ∀ (s : State) (nch proto : Byte) (c m : Bool),
    ∃ t, exec (.bbind nch proto) s = .next t ∧
      ∃ u, exec (.vbind c m) { t with rxp := t.txp, rxLen := 16 } = .next u ∧
        u.responses = t.responses ++ [⟨.ok, if c then 0x7F else 0x3F⟩] ∧ u.mid = s.mid ∧
        (c = true → u.bindNch = nch ∧ u.bindProto = proto)

/-- 43_packet_codec.md R179 (b): a packet BBIND built with any one byte changed does not verify, and
its id is not captured: MID is as before. What else a VBIND with ok = 0 leaves as it is, which is every
field but the responses, VbindReportsAndCaptures says. -/
def Obligations.BindMutationIsDetected : Prop :=
  ∀ (s : State) (nch proto : Byte) (c m : Bool) (k : Fin 16) (b : Byte),
    ∃ t, exec (.bbind nch proto) s = .next t ∧
      (t.txp[k] ≠ b →
        ∃ u d, exec (.vbind c m) { t with rxp := t.txp.set k b, rxLen := 16 } = .next u ∧
          u.responses = t.responses ++ [⟨.ok, d⟩] ∧ d.getLsbD 0 = false ∧ u.mid = s.mid)

/-- 43_packet_codec.md R176 with R170: the packet BCMD builds, and BAD_OPERAND. -/
def Obligations.BcmdBuildsPacket : Prop :=
  ∀ (s : State) (loss : Bool) (n : BitVec 5) (h0 h1 : Nat),
    h0 = headerNumber s.proto s.mid[2] →
    h1 = (headerNumber s.proto s.mid[3] + 1 + bit (loss = true)) % 256 →
    (14 < n.toNat → EndsErr (.bcmd loss n) s .badOperand) ∧
    (n.toNat ≤ 14 → ∃ p : Vector Byte 16,
      p.toList = BitVec.ofNat 8 h0 :: BitVec.ofNat 8 h1 ::
        (s.stg.toList.take n.toNat ++ List.replicate (14 - n.toNat) 0) ∧
      EndsOk (.bcmd loss n) s { s with txp := p } (BitVec.ofNat 32 (256 * h1 + h0)))

/-- 43_packet_codec.md R178 with R177: the class, the loss bit and the reported fields. -/
def Obligations.ClassifyReportsClass : Prop :=
  ∀ (s : State) (cls loss : Nat),
    (cls, loss) =
      (if ¬ LenTest s then (0, 0)
       else if BindTest s then (1, 0)
       else if Header0Test s ∧ offNumber s = 1 then (2, 0)
       else if Header0Test s ∧ offNumber s = 2 ∧ s.clsPlus2 = true then (2, 1)
       else if Header0Test s ∧ offNumber s = 0 then (3, 0)
       else (0, 0)) →
    EndsOk .classify s s (BitVec.ofNat 32 (cls + 4 * loss + 8 * bit (LenTest s)
      + 16 * bit (Header0Test s) + 256 * offNumber s))

/-- 43_packet_codec.md R179 (c): a packet BCMD built classifies as DataPair with its loss bit, when
the loss bit is 0 or CLS_PLUS2 is 1, unless the payload makes it bind-valid, and then as Bind. -/
def Obligations.CommandRoundTrip : Prop :=
  ∀ (s : State) (loss : Bool) (n : BitVec 5), n.toNat ≤ 14 →
    (loss = true → s.clsPlus2 = true) →
    ∃ t, exec (.bcmd loss n) s = .next t ∧
      ∀ r : State, r = { t with rxp := t.txp, rxLen := 16 } →
        ∃ d, EndsOk .classify r r d ∧
          d.toNat % 8 = (if BindTest r then 1 else 2 + 4 * bit (loss = true))

/-! ### Stream shuttle -/

/-- 20_memory.md R66-R68: the ring primitives on the indices 10_state.md R40 allows. -/
def Obligations.RingPrimitives : Prop :=
  ∀ (s : State) (r : Ring), (s.ring r).inIdx < s.params.rbCap → (s.ring r).outIdx < s.params.rbCap →
    rbUsed s r = (if (s.ring r).outIdx ≤ (s.ring r).inIdx
      then (s.ring r).inIdx - (s.ring r).outIdx
      else s.params.rbCap + (s.ring r).inIdx - (s.ring r).outIdx) ∧
    rbUsed s r + rbFree s r = s.params.rbCap - 1 ∧
    ∀ i < rbUsed s r, rbPeek s r i =
      Memory.read r (s.ring r).store
        (if (s.ring r).outIdx + i < s.params.rbCap then (s.ring r).outIdx + i
         else (s.ring r).outIdx + i - s.params.rbCap)

/-- 44_stream_shuttle.md R200, R206 (b) with 20_memory.md R67, R69: INS inserts all n bytes at the
addresses from IN on, modulo RB_CAP, or refuses and changes nothing; it changes no other byte of the
storage and no other state; and its range check. -/
def Obligations.InsIsAllOrNothing : Prop :=
  ∀ (s : State) (r : Ring) (src : InsSource) (n : BitVec 5), s.params.Legal →
    ((src = .stg ∧ 16 < n.toNat) ∨ (src = .rxpPayload ∧ 14 < n.toNat) →
      EndsErr (.ins r src n) s .badOperand) ∧
    ((src = .stg → n.toNat ≤ 16) → (src = .rxpPayload → n.toNat ≤ 14) →
      (s.params.rbCap - 1 - rbUsed s r < n.toNat →
        EndsOk (.ins r src n) s s (BitVec.ofNat 32 (65536 * rbUsed s r))) ∧
      (n.toNat ≤ s.params.rbCap - 1 - rbUsed s r →
        ∃ t, exec (.ins r src n) s = .next t ∧
          t.responses = s.responses ++
            [⟨.ok, BitVec.ofNat 32 (65536 * (rbUsed s r + n.toNat) + 1)⟩] ∧
          (t.ring r).inIdx = ((s.ring r).inIdx + n.toNat) % s.params.rbCap ∧
          (t.ring r).outIdx = (s.ring r).outIdx ∧
          (∀ j < n.toNat,
            some (Memory.read r (t.ring r).store (((s.ring r).inIdx + j) % s.params.rbCap)) =
              (match src with
               | .stg => s.stg.toList[j]?
               | .rxpPayload => s.rxp.toList[2 + j]?)) ∧
          (∀ a, (∀ j < n.toNat, a ≠ ((s.ring r).inIdx + j) % s.params.rbCap) →
            Memory.read r (t.ring r).store a = Memory.read r (s.ring r).store a) ∧
          (∀ q, q ≠ r → t.ring q = s.ring q) ∧
          { t with h2r := s.h2r, r2h := s.r2h, responses := s.responses } = s))

/-- 44_stream_shuttle.md R201 with 20_memory.md R70: EXT discards z leading zeros when the ring is
framed, moves k = min(m, what is left) bytes to STG, advances OUT by z + k, and changes no other
state, the storage included; and its range check. -/
def Obligations.ExtConsumes : Prop :=
  ∀ (s : State) (r : Ring) (m : BitVec 5), s.params.Legal →
    (16 < m.toNat → EndsErr (.ext r m) s .badOperand) ∧
    (m.toNat ≤ 16 → ∀ z k : Nat,
      z = (if s.framed r = true then ((rbHeld s r).takeWhile (· == 0)).length else 0) →
      k = min m.toNat ((rbHeld s r).length - z) →
      ∃ t, exec (.ext r m) s = .next t ∧
        t.responses = s.responses ++ [⟨.ok, BitVec.ofNat 32 (65536 * z + k)⟩] ∧
        t.stg.toList = ((rbHeld s r).drop z).take k ++ s.stg.toList.drop k ∧
        (t.ring r).inIdx = (s.ring r).inIdx ∧
        (t.ring r).outIdx = ((s.ring r).outIdx + z + k) % s.params.rbCap ∧
        (t.ring r).store = (s.ring r).store ∧
        (∀ q, q ≠ r → t.ring q = s.ring q) ∧
        { t with stg := s.stg, h2r := s.h2r, r2h := s.r2h, responses := s.responses } = s)

/-- 44_stream_shuttle.md R203 with R202: what RBQ reports of a ring that holds `z` fill zeros and then
`tail`. -/
def Obligations.RbqReportsFrame : Prop :=
  ∀ (s : State) (r : Ring) (z : Nat) (tail : List Byte), s.params.Legal →
    rbHeld s r = List.replicate z 0 ++ tail → tail.head? ≠ some 0 →
    EndsOk (.rbq r) s s (BitVec.ofNat 32 (z + tail.length + 4096 * (tail.headD 0).toNat
      + 1048576 * bit (tail ≠ [] ∧ (tail.headD 0).toNat ≤ tail.length - 1)
      + 2097152 * bit (s.framed r = true)))

/-- 44_stream_shuttle.md R204: RBCLR empties its ring and leaves the storage and the other ring. -/
def Obligations.RbclrEmptiesRing : Prop :=
  ∀ s : State,
    EndsOk (.rbclr .h2r) s { s with h2r := { s.h2r with inIdx := 0, outIdx := 0 } } 0 ∧
    EndsOk (.rbclr .r2h) s { s with r2h := { s.r2h with inIdx := 0, outIdx := 0 } } 0 ∧
    ∀ (r : Ring) (t : State), exec (.rbclr r) s = .next t → rbHeld t r = []

/-- 44_stream_shuttle.md R205, R206 (c): a ring is a queue. An accepted INS appends its bytes, a
refused one and every command that does not act on the ring leave it as it is, an EXT removes the
zeros it discards and the bytes it returns from the front, RBCLR empties it. -/
def Obligations.RingIsQueue : Prop :=
  ∀ (s t : State) (r : Ring) (i : Instr), s.params.Legal → exec i s = .next t →
    rbHeld t r =
      (match i with
       | .ins rb src n =>
           if rb = r ∧ n.toNat ≤ (match src with | .stg => 16 | .rxpPayload => 14) ∧
               n.toNat ≤ rbFree s r
           then rbHeld s r ++ (match src with
             | .stg => s.stg.toList.take n.toNat
             | .rxpPayload => (s.rxp.toList.drop 2).take n.toNat)
           else rbHeld s r
       | .ext rb m =>
           if rb = r ∧ m.toNat ≤ 16 then
             (if s.framed r = true then (rbHeld s r).dropWhile (· == 0) else rbHeld s r).drop m.toNat
           else rbHeld s r
       | .rbclr rb => if rb = r then [] else rbHeld s r
       | _ => rbHeld s r)

/-- 44_stream_shuttle.md R205: over any commands that neither clear the ring nor write CFG, with the
ring unframed, the bytes held at the start and then the bytes inserted are the bytes returned and
then the bytes held at the end. From an empty ring, what is returned is a prefix of what was
inserted. -/
def Obligations.RingTraceIsFifo : Prop :=
  ∀ (r : Ring) (is : List Instr) (s : State), s.params.Legal → s.framed r = false →
    (∀ i ∈ is, i ≠ .rbclr r ∧ ∀ v, i ≠ .csrw 0x02 v) →
    ∃ a b t, ringTrace r is s = some (a, b, t) ∧ rbHeld s r ++ a = b ++ rbHeld t r

/-- 44_stream_shuttle.md R205: an INS of n bytes followed by an EXT of n on an empty unframed ring
returns exactly those n bytes, and leaves the ring empty. -/
def Obligations.InsThenExtReturnsBytes : Prop :=
  ∀ (s : State) (r : Ring) (n : BitVec 5), s.params.Legal → s.framed r = false →
    rbHeld s r = [] → n.toNat ≤ 16 → n.toNat ≤ s.params.rbCap - 1 →
    ∃ t, execAll [.ins r .stg n, .ext r n] s = .next t ∧ t.stg = s.stg ∧ rbHeld t r = [] ∧
      t.responses = s.responses ++
        [⟨.ok, BitVec.ofNat 32 (65536 * n.toNat + 1)⟩, ⟨.ok, BitVec.ofNat 32 n.toNat⟩]
end

