-- ==== Sys2Proof/Laws/Encode.lean ====
section
/-! SUPPORT. The word of each command as a number, and a field of a word as a number: decoding facts
about concrete fields then are linear arithmetic (30_encoding.md R81, R82). -/

namespace Sys2Proof

/-- {a, b} as a number (00_scope.md R9). -/
theorem toNat_append_eq {n m : Nat} (a : BitVec n) (b : BitVec m) :
    (a ++ b).toNat = a.toNat * 2 ^ m + b.toNat := by
  rw [BitVec.toNat_append, Nat.shiftLeft_eq, mul_comm, Nat.two_pow_add_eq_or_of_lt b.isLt]

/-- w[lo + len - 1 : lo] as a number (00_scope.md R9). -/
theorem toNat_field (w : Word) (lo len : Nat) :
    (field w lo len).toNat = w.toNat / 2 ^ lo % 2 ^ len := by
  rw [field, BitVec.extractLsb'_toNat, Nat.shiftRight_eq_div_pow]

/-- A field is known from the word's number. -/
theorem field_eq_of_toNat {w : Word} {lo len : Nat} {x : BitVec len}
    (h : w.toNat / 2 ^ lo % 2 ^ len = x.toNat) : field w lo len = x :=
  BitVec.eq_of_toNat_eq ((toNat_field _ _ _).trans h)

/-- The bits of w[23:0], on the word's number. -/
theorem getLsbD_operandBits (w : Word) {i : Nat} (h : i < 24) :
    (field w 0 24).getLsbD i = decide (w.toNat / 2 ^ i % 2 = 1) := by
  rw [← BitVec.testBit_toNat, toNat_field, Nat.pow_zero, Nat.div_one, Nat.testBit_mod_two_pow,
    Nat.testBit_eq_decide_div_mod_eq]
  simp [h]

/-- The reserved bits of a format are zero when each of them is (30_encoding.md R86). -/
theorem reserved_zero_of_bits {w : Word} {m : BitVec 24}
    (h : ∀ i < 24, m.getLsbD i = true ∨ w.toNat / 2 ^ i % 2 = 0) :
    field w 0 24 &&& ~~~m = 0 := by
  apply BitVec.eq_of_getLsbD_eq
  intro i hi
  rw [BitVec.getLsbD_and, getLsbD_operandBits w hi, BitVec.getLsbD_not]
  rcases h i hi with h | h <;> simp [h]

/-- Decoding a word whose opcode is defined and whose reserved bits are zero (30_encoding.md R93). -/
theorem decode_of_opcode {w : Word} {op : Opcode} (h1 : opcodeOf (field w 24 8) = some op)
    (h2 : field w 0 24 &&& ~~~(legalMask (formatOf op)) = 0) : decode w = .ok (operandsOf op w) := by
  simp [decode, h1, h2]

theorem toNat_encode_nop :
    (encode .nop).toNat = 0x00 * 2 ^ 24 := by
  change (0x00#8 ++ 0#24).toNat = _
  simp only [toNat_append_eq, BitVec.toNat_ofNat]
  omega

theorem toNat_encode_csrr (csr : BitVec 8) :
    (encode (.csrr csr)).toNat = 0x01 * 2 ^ 24 + csr.toNat * 2 ^ 16 := by
  change (0x01#8 ++ csr ++ 0#16).toNat = _
  simp only [toNat_append_eq, BitVec.toNat_ofNat]
  omega

theorem toNat_encode_csrw (csr : BitVec 8) (value : BitVec 16) :
    (encode (.csrw csr value)).toNat = 0x02 * 2 ^ 24 + csr.toNat * 2 ^ 16 + value.toNat := by
  change (0x02#8 ++ csr ++ value).toNat = _
  simp only [toNat_append_eq, BitVec.toNat_ofNat]
  omega

theorem toNat_encode_bufr (win : Window) (idx : BitVec 5) :
    (encode (.bufr win idx)).toNat = 0x03 * 2 ^ 24 + (windowBits win).toNat * 2 ^ 22 + idx.toNat * 2 ^ 16 := by
  change (0x03#8 ++ windowBits win ++ 0#1 ++ idx ++ 0#16).toNat = _
  simp only [toNat_append_eq, BitVec.toNat_ofNat]
  omega

theorem toNat_encode_bufw (win : Window) (idx : BitVec 5) (byte : Byte) :
    (encode (.bufw win idx byte)).toNat = 0x04 * 2 ^ 24 + (windowBits win).toNat * 2 ^ 22 + idx.toNat * 2 ^ 16 + byte.toNat := by
  change (0x04#8 ++ windowBits win ++ 0#1 ++ idx ++ 0#8 ++ byte).toNat = _
  simp only [toNat_append_eq, BitVec.toNat_ofNat]
  omega

theorem toNat_encode_derive :
    (encode .derive).toNat = 0x10 * 2 ^ 24 := by
  change (0x10#8 ++ 0#24).toNat = _
  simp only [toNat_append_eq, BitVec.toNat_ofNat]
  omega

theorem toNat_encode_gentbl (chA chB : Byte) :
    (encode (.gentbl chA chB)).toNat = 0x11 * 2 ^ 24 + chA.toNat * 2 ^ 8 + chB.toNat := by
  change (0x11#8 ++ 0#8 ++ chA ++ chB).toNat = _
  simp only [toNat_append_eq, BitVec.toNat_ofNat]
  omega

theorem toNat_encode_hop :
    (encode .hop).toNat = 0x12 * 2 ^ 24 := by
  change (0x12#8 ++ 0#24).toNat = _
  simp only [toNat_append_eq, BitVec.toNat_ofNat]
  omega

theorem toNat_encode_flip :
    (encode .flip).toNat = 0x13 * 2 ^ 24 := by
  change (0x13#8 ++ 0#24).toNat = _
  simp only [toNat_append_eq, BitVec.toNat_ofNat]
  omega

theorem toNat_encode_lookup (src : ChannelSource) (ch : BitVec 7) :
    (encode (.lookup src ch)).toNat = 0x14 * 2 ^ 24 + (channelSourceBit src).toNat * 2 ^ 8 + ch.toNat := by
  change (0x14#8 ++ 0#15 ++ channelSourceBit src ++ 0#1 ++ ch).toNat = _
  simp only [toNat_append_eq, BitVec.toNat_ofNat]
  omega

theorem toNat_encode_pnrd (row : BitVec 3) (code : CodeSelect) (k : BitVec 4) :
    (encode (.pnrd row code k)).toNat = 0x15 * 2 ^ 24 + row.toNat * 2 ^ 8 + (codeSelectBit code).toNat * 2 ^ 4 + k.toNat := by
  change (0x15#8 ++ 0#13 ++ row ++ 0#3 ++ codeSelectBit code ++ k).toNat = _
  simp only [toNat_append_eq, BitVec.toNat_ofNat]
  omega

theorem toNat_encode_bbind (nch proto : Byte) :
    (encode (.bbind nch proto)).toNat = 0x20 * 2 ^ 24 + nch.toNat * 2 ^ 8 + proto.toNat := by
  change (0x20#8 ++ 0#8 ++ nch ++ proto).toNat = _
  simp only [toNat_append_eq, BitVec.toNat_ofNat]
  omega

theorem toNat_encode_vbind (capture matchId : Bool) :
    (encode (.vbind capture matchId)).toNat = 0x21 * 2 ^ 24 + (BitVec.ofBool capture).toNat * 2 ^ 1 + (BitVec.ofBool matchId).toNat := by
  change (0x21#8 ++ 0#22 ++ BitVec.ofBool capture ++ BitVec.ofBool matchId).toNat = _
  simp only [toNat_append_eq, BitVec.toNat_ofNat]
  omega

theorem toNat_encode_bcmd (loss : Bool) (len : BitVec 5) :
    (encode (.bcmd loss len)).toNat = 0x22 * 2 ^ 24 + (BitVec.ofBool loss).toNat * 2 ^ 8 + len.toNat := by
  change (0x22#8 ++ 0#15 ++ BitVec.ofBool loss ++ 0#3 ++ len).toNat = _
  simp only [toNat_append_eq, BitVec.toNat_ofNat]
  omega

theorem toNat_encode_classify :
    (encode .classify).toNat = 0x23 * 2 ^ 24 := by
  change (0x23#8 ++ 0#24).toNat = _
  simp only [toNat_append_eq, BitVec.toNat_ofNat]
  omega

theorem toNat_encode_ins (rb : Ring) (src : InsSource) (len : BitVec 5) :
    (encode (.ins rb src len)).toNat = 0x30 * 2 ^ 24 + (ringBit rb).toNat * 2 ^ 16 + (insSourceBit src).toNat * 2 ^ 12 + len.toNat := by
  change (0x30#8 ++ 0#7 ++ ringBit rb ++ 0#3 ++ insSourceBit src ++ 0#7 ++ len).toNat = _
  simp only [toNat_append_eq, BitVec.toNat_ofNat]
  omega

theorem toNat_encode_ext (rb : Ring) (max : BitVec 5) :
    (encode (.ext rb max)).toNat = 0x31 * 2 ^ 24 + (ringBit rb).toNat * 2 ^ 16 + max.toNat := by
  change (0x31#8 ++ 0#7 ++ ringBit rb ++ 0#11 ++ max).toNat = _
  simp only [toNat_append_eq, BitVec.toNat_ofNat]
  omega

theorem toNat_encode_rbq (rb : Ring) :
    (encode (.rbq rb)).toNat = 0x32 * 2 ^ 24 + (ringBit rb).toNat * 2 ^ 16 := by
  change (0x32#8 ++ 0#7 ++ ringBit rb ++ 0#16).toNat = _
  simp only [toNat_append_eq, BitVec.toNat_ofNat]
  omega

theorem toNat_encode_rbclr (rb : Ring) :
    (encode (.rbclr rb)).toNat = 0x33 * 2 ^ 24 + (ringBit rb).toNat * 2 ^ 16 := by
  change (0x33#8 ++ 0#7 ++ ringBit rb ++ 0#16).toNat = _
  simp only [toNat_append_eq, BitVec.toNat_ofNat]
  omega

end Sys2Proof
end

