-- ==== Sys2Proof/Laws/Generator.lean ====
section
/-! SUPPORT. The DSMX generator always fills its table within 2^32 iterations (41_channel_sequencer.md
R136), and what the table it returns looks like (R138). -/

namespace Sys2Proof.Machine

open Sys2Proof

/-! ### The generator word has full period -/

/-- The geometric sum 1 + a + ... + a^(n-1) of the multiplier. -/
def geo : Nat → Nat
  | 0 => 0
  | n + 1 => 0x0019660D * geo n + 1

theorem geo_add (m n : Nat) : geo (m + n) = 0x0019660D ^ n * geo m + geo n := by
  induction n with
  | zero => simp [geo]
  | succ n ih => rw [← Nat.add_assoc, geo, ih, geo, pow_succ]; ring

theorem geo_mod_two (n : Nat) : geo n % 2 = n % 2 := by
  induction n with
  | zero => rfl
  | succ n ih => rw [geo]; omega

theorem pow_mod_four (n : Nat) : 0x0019660D ^ n % 4 = 1 := by
  rw [Nat.pow_mod]
  norm_num

/-- A power of two that divides the geometric sum of n terms divides n. -/
theorem dvd_of_dvd_geo (k : Nat) : ∀ n, 2 ^ k ∣ geo n → 2 ^ k ∣ n := by
  induction k with
  | zero => simp
  | succ k ih =>
    intro n h
    have h2 : geo n % 2 = 0 := Nat.mod_eq_zero_of_dvd ((dvd_pow_self 2 (by omega)).trans h)
    rw [geo_mod_two] at h2
    obtain ⟨m, rfl⟩ : ∃ m, n = m + m := ⟨n / 2, by omega⟩
    have h4 := pow_mod_four m
    obtain ⟨q, hq⟩ : ∃ q, 0x0019660D ^ m + 1 = 2 * (2 * q + 1) :=
      ⟨0x0019660D ^ m / 4, by omega⟩
    have hg : geo (m + m) = 2 * ((2 * q + 1) * geo m) := by
      rw [geo_add]
      calc _ = (0x0019660D ^ m + 1) * geo m := by ring
        _ = _ := by rw [hq]; ring
    rw [hg, pow_succ, mul_comm (2 ^ k) 2] at h
    have h5 : 2 ^ k ∣ (2 * q + 1) * geo m := Nat.dvd_of_mul_dvd_mul_left (by omega) h
    have hc : Nat.Coprime (2 ^ k) (2 * q + 1) :=
      Nat.Coprime.pow_left _ (Nat.coprime_two_left.mpr ⟨q, rfl⟩)
    have h6 := ih m (hc.dvd_of_dvd_mul_left h5)
    rw [pow_succ, mul_comm, ← two_mul]
    exact Nat.mul_dvd_mul_left 2 h6

theorem toNat_mul_add (x a c : Word) :
    (x * a + c).toNat = (x.toNat * a.toNat + c.toNat) % 2 ^ 32 := by
  rw [BitVec.toNat_add, BitVec.toNat_mul, Nat.mod_add_mod]

theorem toNat_multiplier : (0x0019660D : Word).toNat = 0x0019660D := by decide

theorem toNat_increment : (0x3C6EF35F : Word).toNat = 0x3C6EF35F := by decide

/-- One generator step on the word's number (41_channel_sequencer.md R131). -/
theorem toNat_lcgNext (x : Word) :
    (lcgNext x).toNat = (x.toNat * 0x0019660D + 0x3C6EF35F) % 2 ^ 32 := by
  rw [lcgNext, toNat_mul_add, toNat_multiplier, toNat_increment]

/-- The generator word after n steps, in closed form. -/
theorem iterate_lcgNext (n : Nat) (x : Word) :
    (lcgNext^[n] x).toNat = (0x0019660D ^ n * x.toNat + 0x3C6EF35F * geo n) % 2 ^ 32 := by
  induction n with
  | zero => simp [geo, Nat.mod_eq_of_lt x.isLt]
  | succ n ih =>
    have e : ∀ A C u m : Nat, (u % m * A + C) % m = (u * A + C) % m := by
      intro A C u m
      rw [Nat.add_mod, Nat.mod_mul_mod, ← Nat.add_mod]
    rw [Function.iterate_succ_apply', toNat_lcgNext, ih]
    refine (e _ _ _ _).trans (congrArg (· % 2 ^ 32) ?_)
    rw [geo, pow_succ]
    ring

/-- A word that comes back after n > 0 steps comes back after a multiple of 2^32. -/
theorem period_dvd {n : Nat} {x : Word} (h : lcgNext^[n] x = x) : 2 ^ 32 ∣ n := by
  refine dvd_of_dvd_geo 32 n ?_
  have h1 := congrArg BitVec.toNat h
  rw [iterate_lcgNext] at h1
  have hA : 0x0019660D ^ n = 0x0019660C * geo n + 1 := by
    clear h h1
    induction n with
    | zero => rfl
    | succ n ih => rw [pow_succ, ih, geo]; ring
  have hx := x.isLt
  have hd : 2 ^ 32 ∣ (0x0019660C * x.toNat + 0x3C6EF35F) * geo n := by
    rw [hA] at h1
    have h2 : (x.toNat + (0x0019660C * x.toNat + 0x3C6EF35F) * geo n) % 2 ^ 32
        = (x.toNat + 0) % 2 ^ 32 := by
      rw [Nat.add_zero]
      refine Eq.trans ?_ (h1.trans (Nat.mod_eq_of_lt hx).symm)
      congr 1
      ring
    exact (Nat.modEq_zero_iff_dvd).mp (Nat.ModEq.add_left_cancel' _ h2)
  refine Nat.Coprime.dvd_of_dvd_mul_left ?_ hd
  exact Nat.Coprime.pow_left _ (Nat.coprime_two_left.mpr ⟨0x000CB306 * x.toNat + 0x1E3779AF, by ring⟩)

theorem lcgNext_injective : Function.Injective lcgNext := by
  intro x y h
  have h1 := congrArg BitVec.toNat h
  rw [toNat_lcgNext, toNat_lcgNext] at h1
  have hx := x.isLt
  have hy := y.isLt
  have h2 : x.toNat * 0x0019660D ≡ y.toNat * 0x0019660D [MOD 2 ^ 32] :=
    Nat.ModEq.add_right_cancel' _ h1
  have h3 := Nat.ModEq.cancel_right_of_coprime (by decide) h2
  rw [Nat.ModEq, Nat.mod_eq_of_lt hx, Nat.mod_eq_of_lt hy] at h3
  exact BitVec.eq_of_toNat_eq h3

/-- From any start, every word is met within 2^32 steps (41_channel_sequencer.md R136). -/
theorem lcgNext_reaches (x y : Word) : ∃ k < 2 ^ 32, lcgNext^[k + 1] x = y := by
  let g : Fin (2 ^ 32) → Fin (2 ^ 32) := fun k => (lcgNext^[k.val + 1] x).toFin
  have hg : Function.Injective g := by
    have key : ∀ i j : Fin (2 ^ 32), i < j → g i ≠ g j := by
      intro i j hij h
      have h1 : lcgNext^[i.val + 1] x = lcgNext^[j.val + 1] x := by
        have := congrArg BitVec.ofFin h
        simpa [g] using this
      have hij' : i.val < j.val := hij
      clear h hij
      rw [show j.val + 1 = (j.val - i.val) + (i.val + 1) by omega,
        Function.iterate_add_apply lcgNext (j.val - i.val)] at h1
      have h2 := Nat.le_of_dvd (Nat.sub_pos_of_lt hij') (period_dvd h1.symm)
      have h3 := j.isLt
      omega
    intro i j h
    rcases lt_trichotomy i j with hlt | heq | hgt
    · exact absurd h (key i j hlt)
    · exact heq
    · exact absurd h.symm (key j i hgt)
  obtain ⟨k, hk⟩ := Finite.surjective_of_injective hg y.toFin
  refine ⟨k.val, k.isLt, ?_⟩
  have := congrArg BitVec.ofFin hk
  simpa [g] using this

/-! ### What the loop keeps -/

/-- A partial table of 41_channel_sequencer.md R134: distinct candidates, no range over its quota. -/
structure GoodTable (chMod : ChMod) (s : List Nat) : Prop where
  nodup  : s.Nodup
  bounds : ∀ c ∈ s, 3 ≤ c ∧ c < chMod.value + 3
  quota  : ∀ g, usesOf g s ≤ quotaOf g

theorem chMod_value_bounds (m : ChMod) : 73 ≤ m.value ∧ m.value ≤ 74 := by
  cases m <;> decide

theorem candidate_bounds (m : ChMod) (x : Word) :
    3 ≤ candidate m x ∧ candidate m x < m.value + 3 := by
  have := Nat.mod_lt (x.extractLsb' 8 24).toNat (y := m.value) (by cases m <;> decide)
  unfold candidate
  omega

theorem rangeOf_lt (c : Nat) : rangeOf c < 3 := by
  unfold rangeOf
  split_ifs <;> decide

theorem usesOf_append (g : Nat) (s : List Nat) (c : Nat) :
    usesOf g (s ++ [c]) = usesOf g s + if rangeOf c = g then 1 else 0 := by
  simp only [usesOf, List.filter_append, List.length_append, List.filter_cons, List.filter_nil,
    beq_iff_eq]
  split_ifs <;> rfl

/-- Every entry lies in one of the three ranges. -/
theorem length_eq_uses (s : List Nat) :
    s.length = usesOf 0 s + usesOf 1 s + usesOf 2 s := by
  induction s using List.reverseRecOn with
  | nil => rfl
  | append_singleton s c ih =>
    have := rangeOf_lt c
    simp only [usesOf_append, List.length_append, List.length_singleton, ih]
    split_ifs <;> omega

theorem goodTable_nil (m : ChMod) : GoodTable m [] :=
  ⟨List.nodup_nil, by simp, by intro g; simp [usesOf]⟩

/-- An accepted candidate keeps a partial table good. -/
theorem goodTable_append {m : ChMod} {p : Bool} {s : List Nat} {x : Word} (h : GoodTable m s)
    (ha : accepts p s (candidate m x) = true) : GoodTable m (s ++ [candidate m x]) := by
  simp only [accepts, Bool.and_eq_true, Bool.not_eq_true', decide_eq_true_eq,
    List.contains_eq_mem, decide_eq_false_iff_not] at ha
  obtain ⟨⟨-, hn⟩, hq⟩ := ha
  refine ⟨?_, ?_, fun g => ?_⟩
  · exact List.nodup_append.mpr ⟨h.nodup, List.nodup_singleton _, by
      intro a ha' b hb; rw [List.mem_singleton] at hb; subst hb; exact fun e => hn (e ▸ ha')⟩
  · intro c hc
    rcases List.mem_append.mp hc with hc | hc
    · exact h.bounds c hc
    · rw [List.mem_singleton] at hc
      exact hc ▸ candidate_bounds m x
  · rw [usesOf_append]
    split_ifs with hg
    · subst hg; omega
    · exact h.quota g

/-- What the loop returns when it fills the table. -/
theorem dsmxLoop_some {m : ChMod} {p : Bool} (fuel : Nat) :
    ∀ (x : Word) (s : List Nat) (n : Nat) (l : List Nat) (it : Nat),
      GoodTable m s → s.length ≤ 23 → dsmxLoop m p fuel x s n = some (l, it) →
      GoodTable m l ∧ l.length = 23 ∧ it ≤ n + fuel := by
  induction fuel with
  | zero =>
    intro x s n l it hg hs h
    rw [dsmxLoop] at h
    split_ifs at h with h1
    obtain ⟨rfl, rfl⟩ := Prod.mk.inj (Option.some.inj h)
    exact ⟨hg, by omega, by omega⟩
  | succ fuel ih =>
    intro x s n l it hg hs h
    rw [dsmxLoop] at h
    split_ifs at h with h1 h2
    · obtain ⟨a, b, c⟩ := ih _ _ _ _ _ (goodTable_append hg h2) (by simpa using h1) h
      exact ⟨a, b, by omega⟩
    · obtain ⟨a, b, c⟩ := ih _ _ _ _ _ hg hs h
      exact ⟨a, b, by omega⟩
    · obtain ⟨rfl, rfl⟩ := Prod.mk.inj (Option.some.inj h)
      exact ⟨hg, by omega, by omega⟩

/-- A candidate that passed the parity test is settled by a table: it is in it, or its range is full. -/
def Settled (s : List Nat) (c : Nat) : Prop := c ∈ s ∨ quotaOf (rangeOf c) ≤ usesOf (rangeOf c) s

theorem settled_append {s : List Nat} {c : Nat} (d : Nat) (h : Settled s c) :
    Settled (s ++ [d]) c := by
  rcases h with h | h
  · exact .inl (List.mem_append_left _ h)
  · refine .inr (h.trans ?_)
    rw [usesOf_append]
    omega

theorem settled_of_not_accepts {p : Bool} {s : List Nat} {c : Nat} (hp : parityPasses p c = true)
    (h : ¬ accepts p s c = true) : Settled s c := by
  simp only [accepts, hp, Bool.true_and, Bool.and_eq_true, Bool.not_eq_true', decide_eq_true_eq,
    List.contains_eq_mem, decide_eq_false_iff_not, not_and, not_lt] at h
  by_cases hc : c ∈ s
  · exact .inl hc
  · exact .inr (h hc)

/-- If the loop does not fill the table, it ends in a table of fewer than 23 entries that settles
every candidate it met, and every candidate settled before. -/
theorem dsmxLoop_none {m : ChMod} {p : Bool} (fuel : Nat) :
    ∀ (x : Word) (s : List Nat) (n : Nat), dsmxLoop m p fuel x s n = none →
      ∃ s' : List Nat, s'.length < 23 ∧ (∀ c, Settled s c → Settled s' c) ∧
        ∀ k < fuel, parityPasses p (candidate m (lcgNext^[k + 1] x)) = true →
          Settled s' (candidate m (lcgNext^[k + 1] x)) := by
  induction fuel with
  | zero =>
    intro x s n h
    rw [dsmxLoop] at h
    split_ifs at h with h1
    exact ⟨s, h1, fun _ h => h, fun k hk => absurd hk (Nat.not_lt_zero k)⟩
  | succ fuel ih =>
    intro x s n h
    rw [dsmxLoop] at h
    split_ifs at h with h1 h2
    · obtain ⟨s', a, b, c⟩ := ih _ _ _ h
      refine ⟨s', a, fun d hd => b d (settled_append _ hd), fun k hk hp => ?_⟩
      cases k with
      | zero =>
        rw [Nat.zero_add, Function.iterate_one]
        exact b _ (.inl (List.mem_append_right _ (List.mem_singleton_self _)))
      | succ k =>
        rw [Function.iterate_succ_apply lcgNext (k + 1)] at hp ⊢
        exact c k (by omega) hp
    · obtain ⟨s', a, b, c⟩ := ih _ _ _ h
      refine ⟨s', a, b, fun k hk hp => ?_⟩
      cases k with
      | zero =>
        rw [Nat.zero_add, Function.iterate_one] at hp ⊢
        exact b _ (settled_of_not_accepts hp h2)
      | succ k =>
        rw [Function.iterate_succ_apply lcgNext (k + 1)] at hp ⊢
        exact c k (by omega) hp

/-! ### Termination -/

/-- Quota-many channels of each range and either parity that every modulus generates. -/
def channelsOf (p : Bool) (g : Nat) : List Nat :=
  (List.range (quotaOf g)).map fun i =>
    2 * i + (if p then 0 else 1) + (if g = 0 then 4 else if g = 1 then 28 else 52)

theorem channelsOf_spec : ∀ p : Bool, ∀ g < 3, (channelsOf p g).Nodup ∧
    (channelsOf p g).length = quotaOf g ∧
    ∀ c ∈ channelsOf p g, 3 ≤ c ∧ c ≤ 75 ∧ rangeOf c = g ∧ parityPasses p c = true := by
  decide

/-- x[31:8] as a number. -/
theorem toNat_top24 (x : Word) : (x.extractLsb' 8 24).toNat = x.toNat / 256 := by
  have h := x.isLt
  rw [BitVec.extractLsb'_toNat, Nat.shiftRight_eq_div_pow]
  exact Nat.mod_eq_of_lt (by omega)

/-- The candidate of a generator word, on the word's number (41_channel_sequencer.md R132). -/
theorem candidate_eq (m : ChMod) (x : Word) : candidate m x = x.toNat / 256 % m.value + 3 := by
  rw [candidate, toNat_top24]

/-- Every channel in [3,75] is the candidate of some word. -/
theorem candidate_surjective (m : ChMod) {c : Nat} (h1 : 3 ≤ c) (h2 : c ≤ 75) :
    ∃ y : Word, candidate m y = c := by
  have h3 := chMod_value_bounds m
  obtain ⟨y, hy⟩ : ∃ y : Word, y.toNat = (c - 3) * 256 :=
    ⟨BitVec.ofNatLT ((c - 3) * 256) (by omega), BitVec.toNat_ofNatLT ..⟩
  refine ⟨y, ?_⟩
  rw [candidate_eq, hy, Nat.mul_div_cancel _ (by omega), Nat.mod_eq_of_lt (by omega)]
  omega

/-- A table that settles every channel of a parity fills every range. -/
theorem range_full {p : Bool} {s : List Nat}
    (h : ∀ c, 3 ≤ c → c ≤ 75 → parityPasses p c = true → Settled s c) {g : Nat} (hg : g < 3) :
    quotaOf g ≤ usesOf g s := by
  obtain ⟨hnd, hlen, hall⟩ := channelsOf_spec p g hg
  by_cases hfull : ∃ c ∈ channelsOf p g, quotaOf (rangeOf c) ≤ usesOf (rangeOf c) s
  · obtain ⟨c, hc, hq⟩ := hfull
    rwa [(hall c hc).2.2.1] at hq
  · have hsub : channelsOf p g ⊆ s.filter fun c => rangeOf c == g := by
      intro c hc
      obtain ⟨a, b, d, e⟩ := hall c hc
      rw [List.mem_filter]
      refine ⟨(h c a b e).resolve_right fun hq => hfull ⟨c, hc, hq⟩, by simpa using d⟩
    have := (hnd.subperm hsub).length_le
    rwa [hlen] at this

/-- 41_channel_sequencer.md R136: the generator fills the table within 2^32 iterations; R138: the
table has 23 distinct entries in [3, CH_MOD + 2] and no range over its quota. -/
theorem dsmxTable_spec (params : Params) (mid : Vector Byte 4) :
    ∃ l it, dsmxTable params mid = some (l, it) ∧ GoodTable params.chMod l ∧ l.length = 23 ∧
      it ≤ 2 ^ 32 := by
  cases h : dsmxTable params mid with
  | some x =>
    rw [dsmxTable] at h
    obtain ⟨l, it⟩ := x
    obtain ⟨a, b, c⟩ := dsmxLoop_some _ _ _ _ _ _ (goodTable_nil _) (by simp) h
    exact ⟨l, it, rfl, a, b, by omega⟩
  | none =>
    exfalso
    rw [dsmxTable] at h
    obtain ⟨s, hlen, -, hs⟩ := dsmxLoop_none _ _ _ _ h
    have hall : ∀ c, 3 ≤ c → c ≤ 75 → parityPasses (parityBit params.parityRef mid) c = true →
        Settled s c := by
      intro c h1 h2 hp
      obtain ⟨y, hy⟩ := candidate_surjective params.chMod h1 h2
      obtain ⟨k, hk, hky⟩ := lcgNext_reaches (~~~(id32 mid)) y
      have := hs k hk
      rw [hky, hy] at this
      exact this hp
    have h0 := range_full hall (g := 0) (by decide)
    have h1 := range_full hall (g := 1) (by decide)
    have h2 := range_full hall (g := 2) (by decide)
    have hq : quotaOf 0 = 8 ∧ quotaOf 1 = 7 ∧ quotaOf 2 = 8 := by decide
    have := length_eq_uses s
    omega

/-- The three ranges of a table of 23 entries hold exactly 8, 7 and 8 (41_channel_sequencer.md
R138). -/
theorem uses_of_goodTable {m : ChMod} {l : List Nat} (h : GoodTable m l) (hl : l.length = 23) :
    usesOf 0 l = 8 ∧ usesOf 1 l = 7 ∧ usesOf 2 l = 8 := by
  have h0 := h.quota 0
  have h1 := h.quota 1
  have h2 := h.quota 2
  have hq : quotaOf 0 = 8 ∧ quotaOf 1 = 7 ∧ quotaOf 2 = 8 := by decide
  have := length_eq_uses l
  omega

end Sys2Proof.Machine
end

