-- ==== Sys2Proof/Laws/State.lean ====
section
/-! SUPPORT. What each shared update of the state does to each field, one lemma per field. -/

namespace Sys2Proof.Machine

open Sys2Proof

/-! ### respond -/

@[simp] theorem respond_mid (s : State) (d : Word) : (s.respond d).mid = s.mid := rfl
@[simp] theorem respond_proto (s : State) (d : Word) : (s.respond d).proto = s.proto := rfl
@[simp] theorem respond_clsPlus2 (s : State) (d : Word) : (s.respond d).clsPlus2 = s.clsPlus2 := rfl
@[simp] theorem respond_frm0 (s : State) (d : Word) : (s.respond d).frm0 = s.frm0 := rfl
@[simp] theorem respond_frm1 (s : State) (d : Word) : (s.respond d).frm1 = s.frm1 := rfl
@[simp] theorem respond_crcCur (s : State) (d : Word) : (s.respond d).crcCur = s.crcCur := rfl
@[simp] theorem respond_hopIdx (s : State) (d : Word) : (s.respond d).hopIdx = s.hopIdx := rfl
@[simp] theorem respond_tblLen (s : State) (d : Word) : (s.respond d).tblLen = s.tblLen := rfl
@[simp] theorem respond_tvalid (s : State) (d : Word) : (s.respond d).tvalid = s.tvalid := rfl
@[simp] theorem respond_err (s : State) (d : Word) : (s.respond d).err = s.err := rfl
@[simp] theorem respond_bindNch (s : State) (d : Word) : (s.respond d).bindNch = s.bindNch := rfl
@[simp] theorem respond_bindProto (s : State) (d : Word) : (s.respond d).bindProto = s.bindProto := rfl
@[simp] theorem respond_rxLen (s : State) (d : Word) : (s.respond d).rxLen = s.rxLen := rfl
@[simp] theorem respond_rxp (s : State) (d : Word) : (s.respond d).rxp = s.rxp := rfl
@[simp] theorem respond_txp (s : State) (d : Word) : (s.respond d).txp = s.txp := rfl
@[simp] theorem respond_stg (s : State) (d : Word) : (s.respond d).stg = s.stg := rfl
@[simp] theorem respond_cht (s : State) (d : Word) : (s.respond d).cht = s.cht := rfl
@[simp] theorem respond_h2r (s : State) (d : Word) : (s.respond d).h2r = s.h2r := rfl
@[simp] theorem respond_r2h (s : State) (d : Word) : (s.respond d).r2h = s.r2h := rfl
@[simp] theorem respond_params (s : State) (d : Word) : (s.respond d).params = s.params := rfl
@[simp] theorem respond_port (s : State) (d : Word) : (s.respond d).port = s.port := rfl
@[simp] theorem respond_responses (s : State) (d : Word) :
    (s.respond d).responses = s.responses ++ [⟨.ok, d⟩] := rfl

/-! ### raise -/

@[simp] theorem raise_mid (s : State) (e : ErrCode) : (s.raise e).mid = s.mid := rfl
@[simp] theorem raise_proto (s : State) (e : ErrCode) : (s.raise e).proto = s.proto := rfl
@[simp] theorem raise_clsPlus2 (s : State) (e : ErrCode) : (s.raise e).clsPlus2 = s.clsPlus2 := rfl
@[simp] theorem raise_frm0 (s : State) (e : ErrCode) : (s.raise e).frm0 = s.frm0 := rfl
@[simp] theorem raise_frm1 (s : State) (e : ErrCode) : (s.raise e).frm1 = s.frm1 := rfl
@[simp] theorem raise_crcCur (s : State) (e : ErrCode) : (s.raise e).crcCur = s.crcCur := rfl
@[simp] theorem raise_hopIdx (s : State) (e : ErrCode) : (s.raise e).hopIdx = s.hopIdx := rfl
@[simp] theorem raise_tblLen (s : State) (e : ErrCode) : (s.raise e).tblLen = s.tblLen := rfl
@[simp] theorem raise_tvalid (s : State) (e : ErrCode) : (s.raise e).tvalid = s.tvalid := rfl
@[simp] theorem raise_bindNch (s : State) (e : ErrCode) : (s.raise e).bindNch = s.bindNch := rfl
@[simp] theorem raise_bindProto (s : State) (e : ErrCode) : (s.raise e).bindProto = s.bindProto := rfl
@[simp] theorem raise_rxLen (s : State) (e : ErrCode) : (s.raise e).rxLen = s.rxLen := rfl
@[simp] theorem raise_rxp (s : State) (e : ErrCode) : (s.raise e).rxp = s.rxp := rfl
@[simp] theorem raise_txp (s : State) (e : ErrCode) : (s.raise e).txp = s.txp := rfl
@[simp] theorem raise_stg (s : State) (e : ErrCode) : (s.raise e).stg = s.stg := rfl
@[simp] theorem raise_cht (s : State) (e : ErrCode) : (s.raise e).cht = s.cht := rfl
@[simp] theorem raise_h2r (s : State) (e : ErrCode) : (s.raise e).h2r = s.h2r := rfl
@[simp] theorem raise_r2h (s : State) (e : ErrCode) : (s.raise e).r2h = s.r2h := rfl
@[simp] theorem raise_params (s : State) (e : ErrCode) : (s.raise e).params = s.params := rfl
@[simp] theorem raise_port (s : State) (e : ErrCode) : (s.raise e).port = s.port := rfl
@[simp] theorem raise_err (s : State) (e : ErrCode) : (s.raise e).err = s.err ||| errMask e := rfl
@[simp] theorem raise_responses (s : State) (e : ErrCode) :
    (s.raise e).responses = s.responses ++ [⟨.err e, 0⟩] := rfl

/-! ### setRing -/

@[simp] theorem setRing_mid (s : State) (r : Ring) (b : RingBuf) :
    (s.setRing r b).mid = s.mid := by cases r <;> rfl
@[simp] theorem setRing_proto (s : State) (r : Ring) (b : RingBuf) :
    (s.setRing r b).proto = s.proto := by cases r <;> rfl
@[simp] theorem setRing_clsPlus2 (s : State) (r : Ring) (b : RingBuf) :
    (s.setRing r b).clsPlus2 = s.clsPlus2 := by cases r <;> rfl
@[simp] theorem setRing_frm0 (s : State) (r : Ring) (b : RingBuf) :
    (s.setRing r b).frm0 = s.frm0 := by cases r <;> rfl
@[simp] theorem setRing_frm1 (s : State) (r : Ring) (b : RingBuf) :
    (s.setRing r b).frm1 = s.frm1 := by cases r <;> rfl
@[simp] theorem setRing_crcCur (s : State) (r : Ring) (b : RingBuf) :
    (s.setRing r b).crcCur = s.crcCur := by cases r <;> rfl
@[simp] theorem setRing_hopIdx (s : State) (r : Ring) (b : RingBuf) :
    (s.setRing r b).hopIdx = s.hopIdx := by cases r <;> rfl
@[simp] theorem setRing_tblLen (s : State) (r : Ring) (b : RingBuf) :
    (s.setRing r b).tblLen = s.tblLen := by cases r <;> rfl
@[simp] theorem setRing_tvalid (s : State) (r : Ring) (b : RingBuf) :
    (s.setRing r b).tvalid = s.tvalid := by cases r <;> rfl
@[simp] theorem setRing_err (s : State) (r : Ring) (b : RingBuf) :
    (s.setRing r b).err = s.err := by cases r <;> rfl
@[simp] theorem setRing_bindNch (s : State) (r : Ring) (b : RingBuf) :
    (s.setRing r b).bindNch = s.bindNch := by cases r <;> rfl
@[simp] theorem setRing_bindProto (s : State) (r : Ring) (b : RingBuf) :
    (s.setRing r b).bindProto = s.bindProto := by cases r <;> rfl
@[simp] theorem setRing_rxLen (s : State) (r : Ring) (b : RingBuf) :
    (s.setRing r b).rxLen = s.rxLen := by cases r <;> rfl
@[simp] theorem setRing_rxp (s : State) (r : Ring) (b : RingBuf) :
    (s.setRing r b).rxp = s.rxp := by cases r <;> rfl
@[simp] theorem setRing_txp (s : State) (r : Ring) (b : RingBuf) :
    (s.setRing r b).txp = s.txp := by cases r <;> rfl
@[simp] theorem setRing_stg (s : State) (r : Ring) (b : RingBuf) :
    (s.setRing r b).stg = s.stg := by cases r <;> rfl
@[simp] theorem setRing_cht (s : State) (r : Ring) (b : RingBuf) :
    (s.setRing r b).cht = s.cht := by cases r <;> rfl
@[simp] theorem setRing_params (s : State) (r : Ring) (b : RingBuf) :
    (s.setRing r b).params = s.params := by cases r <;> rfl
@[simp] theorem setRing_port (s : State) (r : Ring) (b : RingBuf) :
    (s.setRing r b).port = s.port := by cases r <;> rfl
@[simp] theorem setRing_responses (s : State) (r : Ring) (b : RingBuf) :
    (s.setRing r b).responses = s.responses := by cases r <;> rfl
@[simp] theorem setRing_h2r_h2r (s : State) (b : RingBuf) : (s.setRing .h2r b).h2r = b := rfl
@[simp] theorem setRing_h2r_r2h (s : State) (b : RingBuf) : (s.setRing .h2r b).r2h = s.r2h := rfl
@[simp] theorem setRing_r2h_r2h (s : State) (b : RingBuf) : (s.setRing .r2h b).r2h = b := rfl
@[simp] theorem setRing_r2h_h2r (s : State) (b : RingBuf) : (s.setRing .r2h b).h2r = s.h2r := rfl
@[simp] theorem setRing_ring (s : State) (r : Ring) (b : RingBuf) : (s.setRing r b).ring r = b := by
  cases r <;> rfl
theorem setRing_ring_ne (s : State) {r q : Ring} (b : RingBuf) (h : q ≠ r) :
    (s.setRing r b).ring q = s.ring q := by
  cases r <;> cases q <;> first | rfl | exact absurd rfl h
@[simp] theorem setRing_framed (s : State) (r q : Ring) (b : RingBuf) :
    (s.setRing r b).framed q = s.framed q := by cases r <;> cases q <;> rfl

/-! ### ring and framed of an answered command -/

@[simp] theorem respond_ring (s : State) (d : Word) (r : Ring) : (s.respond d).ring r = s.ring r := by
  cases r <;> rfl
@[simp] theorem raise_ring (s : State) (e : ErrCode) (r : Ring) : (s.raise e).ring r = s.ring r := by
  cases r <;> rfl
@[simp] theorem respond_framed (s : State) (d : Word) (r : Ring) :
    (s.respond d).framed r = s.framed r := by cases r <;> rfl
@[simp] theorem raise_framed (s : State) (e : ErrCode) (r : Ring) :
    (s.raise e).framed r = s.framed r := by cases r <;> rfl

/-! ### the port -/

@[simp] theorem deliverNext_mid (s : State) (w : Word) : (deliverNext s w).mid = s.mid := rfl
@[simp] theorem deliverNext_proto (s : State) (w : Word) : (deliverNext s w).proto = s.proto := rfl
@[simp] theorem deliverNext_clsPlus2 (s : State) (w : Word) : (deliverNext s w).clsPlus2 = s.clsPlus2 := rfl
@[simp] theorem deliverNext_frm0 (s : State) (w : Word) : (deliverNext s w).frm0 = s.frm0 := rfl
@[simp] theorem deliverNext_frm1 (s : State) (w : Word) : (deliverNext s w).frm1 = s.frm1 := rfl
@[simp] theorem deliverNext_crcCur (s : State) (w : Word) : (deliverNext s w).crcCur = s.crcCur := rfl
@[simp] theorem deliverNext_hopIdx (s : State) (w : Word) : (deliverNext s w).hopIdx = s.hopIdx := rfl
@[simp] theorem deliverNext_tblLen (s : State) (w : Word) : (deliverNext s w).tblLen = s.tblLen := rfl
@[simp] theorem deliverNext_tvalid (s : State) (w : Word) : (deliverNext s w).tvalid = s.tvalid := rfl
@[simp] theorem deliverNext_err (s : State) (w : Word) : (deliverNext s w).err = s.err := rfl
@[simp] theorem deliverNext_bindNch (s : State) (w : Word) : (deliverNext s w).bindNch = s.bindNch := rfl
@[simp] theorem deliverNext_bindProto (s : State) (w : Word) : (deliverNext s w).bindProto = s.bindProto := rfl
@[simp] theorem deliverNext_rxLen (s : State) (w : Word) : (deliverNext s w).rxLen = s.rxLen := rfl
@[simp] theorem deliverNext_rxp (s : State) (w : Word) : (deliverNext s w).rxp = s.rxp := rfl
@[simp] theorem deliverNext_txp (s : State) (w : Word) : (deliverNext s w).txp = s.txp := rfl
@[simp] theorem deliverNext_stg (s : State) (w : Word) : (deliverNext s w).stg = s.stg := rfl
@[simp] theorem deliverNext_cht (s : State) (w : Word) : (deliverNext s w).cht = s.cht := rfl
@[simp] theorem deliverNext_h2r (s : State) (w : Word) : (deliverNext s w).h2r = s.h2r := rfl
@[simp] theorem deliverNext_r2h (s : State) (w : Word) : (deliverNext s w).r2h = s.r2h := rfl
@[simp] theorem deliverNext_params (s : State) (w : Word) : (deliverNext s w).params = s.params := rfl
@[simp] theorem deliverNext_responses (s : State) (w : Word) : (deliverNext s w).responses = s.responses := rfl
@[simp] theorem deliverNext_port (s : State) (w : Word) : (deliverNext s w).port = w :: s.port := rfl
@[simp] theorem fetch_nil {s : State} (h : s.port = []) : fetch s = none := by simp [fetch, h]
@[simp] theorem fetch_cons {s : State} {w : Word} {rest : List Word} (h : s.port = w :: rest) :
    fetch s = some (w, { s with port := rest }) := by simp [fetch, h]

end Sys2Proof.Machine
end

