-- ==== Sys2Proof/Laws/Exec.lean ====
section
/-! SUPPORT. Everything a command can do, said once: it raises an error, or it answers with status OK
in a state related to the old one by `Effect`. Invariants and frames follow from this by cases. -/

namespace Sys2Proof.Machine

open Sys2Proof

/-- The state effect of a command that ends with status OK, before its response is appended. -/
def Effect : Instr → State → State → Prop
  | .csrw csr v, s, u => ∃ c, csrAt csr = some c ∧ csrWrite s c v = .ok u
  | .bufw win idx b, s, u => win ≠ .cht ∧ idx.toNat < 16 ∧ u = setWindowByte s win idx.toNat b
  | .derive, s, u => u = { s with crcCur := crcBase s.mid, hopIdx := 0 }
  | .gentbl a b, s, u =>
      (s.proto = .dsm2 ∧ pairRefused a b = false ∧
        u = { s with cht := (s.cht.set 0 a).set 1 b, tblLen := 2, tvalid := true, hopIdx := 0 }) ∨
      (s.proto = .dsmx ∧ ∃ table it, dsmxTable s.params s.mid = some (table, it) ∧
        u = { s with
          cht := Vector.ofFn fun i : Fin 23 => BitVec.ofNat 8 ((table[i.val]?).getD 0)
          tblLen := 23, tvalid := true, hopIdx := 0 })
  | .hop, s, u => s.tvalid = true ∧
      u = { s with hopIdx := nextHopIdx s.hopIdx s.tblLen, crcCur := ~~~s.crcCur }
  | .flip, s, u => u = { s with crcCur := ~~~s.crcCur }
  | .bbind _ _, s, u => ∃ p, u = { s with txp := p }
  | .vbind c m, s, u => ((vbindOk m s && c) = true ∧ u = captureBind s) ∨ u = s
  | .bcmd _ _, s, u => ∃ p, u = { s with txp := p }
  | .ins rb src n, s, u =>
      (n.toNat ≤ insertLimit src ∧ n.toNat ≤ rbFree s rb ∧
        u = rbPush s rb (insertBytes s src n.toNat)) ∨ u = s
  | .ext rb m, s, u => m.toNat ≤ 16 ∧ u = takeBytes rb m.toNat (rbDrop s rb (zerosDiscarded s rb))
  | .rbclr rb, s, u => u = s.setRing rb { s.ring rb with inIdx := 0, outIdx := 0 }
  | .nop, s, u | .csrr _, s, u | .bufr _ _, s, u | .lookup _ _, s, u | .pnrd _ _ _, s, u
  | .classify, s, u | .rbq _, s, u => u = s

theorem done_inj {u t : State} {d : Word} (h : done u d = .next t) : t = u.respond d := by
  cases h; rfl

theorem fail_inj {s t : State} {e : ErrCode} (h : fail s e = .next t) : t = s.raise e := by
  cases h; rfl

/-- In DSMX mode GENTBL always answers (41_channel_sequencer.md R136). -/
theorem gentblDsmx_eq (s : State) : ∃ table it, dsmxTable s.params s.mid = some (table, it) ∧
    gentblDsmx s = done { s with
      cht := Vector.ofFn fun i : Fin 23 => BitVec.ofNat 8 ((table[i.val]?).getD 0)
      tblLen := 23, tvalid := true, hopIdx := 0 } (gentblData it 23) := by
  obtain ⟨l, it, h, -⟩ := dsmxTable_spec s.params s.mid
  exact ⟨l, it, h, by rw [gentblDsmx, h]; rfl⟩

/-- What a command that answers has done. -/
theorem exec_cases {i : Instr} {s t : State} (h : exec i s = .next t) :
    (∃ e, t = s.raise e) ∨ ∃ u d, t = u.respond d ∧ Effect i s u := by
  cases i with
  | nop => exact .inr ⟨s, _, done_inj h, rfl⟩
  | csrr csr =>
    simp only [exec, execCsrr] at h
    split at h
    · exact .inl ⟨_, fail_inj h⟩
    · exact .inr ⟨s, _, done_inj h, rfl⟩
  | csrw csr v =>
    simp only [exec, execCsrw] at h
    split at h
    · exact .inl ⟨_, fail_inj h⟩
    · rename_i c hc
      split at h
      · exact .inl ⟨_, fail_inj h⟩
      · rename_i u hu
        exact .inr ⟨u, _, done_inj h, c, hc, hu⟩
  | bufr win idx =>
    simp only [exec, execBufr] at h
    split at h
    · exact .inl ⟨_, fail_inj h⟩
    · exact .inr ⟨s, _, done_inj h, rfl⟩
  | bufw win idx b =>
    simp only [exec, execBufw] at h
    split_ifs at h with h1 h2
    · exact .inl ⟨_, fail_inj h⟩
    · exact .inl ⟨_, fail_inj h⟩
    · exact .inr ⟨_, _, done_inj h, h1, by omega, rfl⟩
  | derive => exact .inr ⟨_, _, done_inj h, rfl⟩
  | gentbl a b =>
    simp only [exec, execGentbl] at h
    split at h
    · rename_i hp
      simp only [gentblDsm2] at h
      split_ifs at h with h1
      · exact .inl ⟨_, fail_inj h⟩
      · exact .inr ⟨_, _, done_inj h, .inl ⟨hp, by simpa using h1, rfl⟩⟩
    · rename_i hp
      obtain ⟨table, it, h1, h2⟩ := gentblDsmx_eq s
      rw [h2] at h
      exact .inr ⟨_, _, done_inj h, .inr ⟨hp, table, it, h1, rfl⟩⟩
  | hop =>
    simp only [exec, execHop] at h
    split_ifs at h with h1
    · exact .inl ⟨_, fail_inj h⟩
    · exact .inr ⟨_, _, done_inj h, by simpa using h1, rfl⟩
  | flip => exact .inr ⟨_, _, done_inj h, rfl⟩
  | lookup src ch =>
    simp only [exec, execLookup] at h
    split at h
    · split_ifs at h with h1
      · exact .inl ⟨_, fail_inj h⟩
      · exact .inr ⟨s, _, done_inj h, rfl⟩
    · exact .inr ⟨s, _, done_inj h, rfl⟩
  | pnrd row code k =>
    simp only [exec, execPnrd] at h
    split_ifs at h with h1 h2
    · exact .inl ⟨_, fail_inj h⟩
    · exact .inr ⟨s, _, done_inj h, rfl⟩
    · exact .inl ⟨_, fail_inj h⟩
  | bbind nch proto => exact .inr ⟨_, _, done_inj h, _, rfl⟩
  | vbind c m =>
    simp only [exec, execVbind] at h
    split_ifs at h with h1
    · exact .inr ⟨_, _, done_inj h, .inl ⟨h1, rfl⟩⟩
    · exact .inr ⟨s, _, done_inj h, .inr rfl⟩
  | bcmd loss n =>
    simp only [exec, execBcmd] at h
    split_ifs at h with h1
    · exact .inl ⟨_, fail_inj h⟩
    · exact .inr ⟨_, _, done_inj h, _, rfl⟩
  | classify => exact .inr ⟨s, _, done_inj h, rfl⟩
  | ins rb src n =>
    simp only [exec, execIns] at h
    split_ifs at h with h1 h2
    · exact .inl ⟨_, fail_inj h⟩
    · exact .inr ⟨_, _, done_inj h, .inl ⟨by omega, h2, rfl⟩⟩
    · exact .inr ⟨s, _, done_inj h, .inr rfl⟩
  | ext rb m =>
    simp only [exec, execExt] at h
    split_ifs at h with h1
    · exact .inl ⟨_, fail_inj h⟩
    · exact .inr ⟨_, _, done_inj h, by omega, rfl⟩
  | rbq rb => exact .inr ⟨s, _, done_inj h, rfl⟩
  | rbclr rb => exact .inr ⟨_, _, done_inj h, rfl⟩

/-- What a CSR write that is not refused has done. -/
theorem csrWrite_cases {s u : State} {c : Csr} {v : BitVec 16} (h : csrWrite s c v = .ok u) :
    (c = .idHi ∧
      u = { s with mid := #v[highByte v, lowByte v, s.mid[2], s.mid[3]], tvalid := false }) ∨
    (c = .idLo ∧
      u = { s with mid := #v[s.mid[0], s.mid[1], highByte v, lowByte v], tvalid := false }) ∨
    (c = .cfg ∧ u = cfgWrite s v) ∨
    (c = .crcCur ∧ u = { s with crcCur := v }) ∨
    (c = .hopIdx ∧ s.tvalid = true ∧ v.toNat < s.tblLen.toNat ∧
      u = { s with hopIdx := v.setWidth 5 }) ∨
    (c = .err ∧ u = { s with err := s.err &&& ~~~(v.extractLsb' 1 6) }) ∨
    (c = .rxLen ∧ v.toNat ≤ 16 ∧ u = { s with rxLen := v.setWidth 5 }) := by
  cases c with
  | hopIdx =>
    simp only [csrWrite] at h
    split_ifs at h with h1 h2
    cases h
    simp_all
  | rxLen =>
    simp only [csrWrite] at h
    split_ifs at h with h1
    cases h
    simp_all
  | _ => cases h <;> simp

/-- The address of each CSR (10_state.md R37). -/
def csrAddress : Csr → BitVec 8
  | .idHi => 0x00
  | .idLo => 0x01
  | .cfg => 0x02
  | .code => 0x03
  | .crcBase => 0x04
  | .crcCur => 0x05
  | .hopIdx => 0x06
  | .tbl => 0x07
  | .status => 0x08
  | .err => 0x09
  | .bindInfo => 0x0A
  | .rxLen => 0x0B

theorem csrAt_all : ∀ a : BitVec 8, csrAt a = none ∨ ∃ c ∈ [Csr.idHi, .idLo, .cfg, .code, .crcBase,
    .crcCur, .hopIdx, .tbl, .status, .err, .bindInfo, .rxLen], csrAt a = some c ∧ a = csrAddress c := by
  decide +kernel

/-- A CSR is found at its address only (10_state.md R37). -/
theorem csrAt_eq_some {a : BitVec 8} {c : Csr} (h : csrAt a = some c) : a = csrAddress c := by
  rcases csrAt_all a with h1 | ⟨d, -, h1, h2⟩
  · rw [h1] at h; cases h
  · rw [h1] at h
    cases h
    exact h2

end Sys2Proof.Machine
end

