-- ==== Sys2Proof/Laws/Memory.lean ====
section
/-! SUPPORT. The ring storages: read after write, and that every memory operation keeps the canonical
form. -/

namespace Sys2Proof.Machine

open Sys2Proof

/-! ### One write -/

theorem find_write (m : Memory) (a : Nat) (v : Byte) (b : Nat) :
    Memory.find (Memory.write m a v) b = if b = a then some v else Memory.find m b := by
  induction m with
  | nil => simp [Memory.write, Memory.find]
  | cons c m ih =>
    obtain ⟨d, w⟩ := c
    simp only [Memory.write]
    split_ifs with h1 h2 <;> simp only [Memory.find, ih] <;> split_ifs <;>
      first | rfl | omega

/-- Writing a cell changes what is read at no other address. -/
theorem read_write_ne (r : Ring) (m : Memory) (a : Nat) (v : Byte) {b : Nat} (h : b ≠ a) :
    Memory.read r (Memory.write m a v) b = Memory.read r m b := by
  simp [Memory.read, find_write, h]

/-- A written cell reads as what was written. -/
theorem read_write_same (r : Ring) (m : Memory) (a : Nat) (v : Byte) :
    Memory.read r (Memory.write m a v) a = v := by
  simp [Memory.read, find_write]

theorem above_mono {lo hi : Nat} (h : lo ≤ hi) {m : Memory} :
    Memory.above hi m = true → Memory.above lo m = true := by
  induction m with
  | nil => simp [Memory.above]
  | cons c m ih =>
    obtain ⟨d, w⟩ := c
    simp only [Memory.above, Bool.and_eq_true, decide_eq_true_eq]
    exact fun ⟨h1, h2⟩ => ⟨by omega, ih h2⟩

theorem above_write {lo a : Nat} (v : Byte) (h : lo < a) {m : Memory} :
    Memory.above lo m = true → Memory.above lo (Memory.write m a v) = true := by
  induction m with
  | nil => simp [Memory.above, Memory.write, h]
  | cons c m ih =>
    obtain ⟨d, w⟩ := c
    simp only [Memory.write]
    split_ifs <;> simp only [Memory.above, Bool.and_eq_true, decide_eq_true_eq]
    · exact fun ⟨h1, h2⟩ => ⟨h, h1, h2⟩
    · exact fun ⟨_, h2⟩ => ⟨h, h2⟩
    · exact fun ⟨h1, h2⟩ => ⟨h1, ih h2⟩

/-- A write keeps the canonical form. -/
theorem wf_write {m : Memory} (a : Nat) (v : Byte) :
    Memory.wf m = true → Memory.wf (Memory.write m a v) = true := by
  induction m with
  | nil => simp [Memory.wf, Memory.write, Memory.above]
  | cons c m ih =>
    obtain ⟨d, w⟩ := c
    simp only [Memory.write]
    split_ifs with h1 h2 <;>
      simp only [Memory.wf, Memory.above, Bool.and_eq_true, decide_eq_true_eq]
    · exact fun ⟨h3, h4⟩ => ⟨⟨h1, above_mono (Nat.le_of_lt h1) h3⟩, h3, h4⟩
    · exact fun ⟨h3, h4⟩ => ⟨h2 ▸ h3, h4⟩
    · exact fun ⟨h3, h4⟩ => ⟨above_write v (by omega) h3, ih h4⟩

/-- The cells of a written storage are the old ones and the new one. -/
theorem mem_write {m : Memory} {a : Nat} {v : Byte} {c : Host.Cell} :
    c ∈ Memory.write m a v → c.1 = a ∨ c ∈ m := by
  induction m with
  | nil => simp +contextual [Memory.write]
  | cons d m ih =>
    obtain ⟨d, w⟩ := d
    simp only [Memory.write]
    split_ifs <;> simp only [List.mem_cons]
    · rintro (rfl | rfl | h)
      · exact .inl rfl
      · exact .inr (.inl rfl)
      · exact .inr (.inr h)
    · rintro (rfl | h)
      · exact .inl rfl
      · exact .inr (.inr h)
    · rintro (rfl | h)
      · exact .inr (.inl rfl)
      · exact (ih h).imp id .inr

/-! ### A sequence of writes -/

/-- Writing a sequence keeps the canonical form. -/
theorem wf_writeSeq (cap : Nat) (d : List Byte) :
    ∀ (m : Memory) (a : Nat), Memory.wf m = true → Memory.wf (Memory.writeSeq cap m a d) = true := by
  induction d with
  | nil => exact fun _ _ h => h
  | cons b d ih => exact fun m a h => ih _ _ (wf_write _ _ h)

/-- Writing a sequence keeps every listed address below the capacity. -/
theorem below_writeSeq {cap : Nat} (hcap : 0 < cap) (d : List Byte) :
    ∀ (m : Memory) (a : Nat), (∀ c ∈ m, c.1 < cap) →
      ∀ c ∈ Memory.writeSeq cap m a d, c.1 < cap := by
  induction d with
  | nil => exact fun _ _ h => h
  | cons b d ih =>
    refine fun m a h => ih _ _ fun c hc => ?_
    rcases mem_write hc with h1 | h1
    · exact h1 ▸ Nat.mod_lt _ hcap
    · exact h c h1

/-- A sequence leaves every address it does not write as it was. -/
theorem find_writeSeq_ne {cap : Nat} (d : List Byte) :
    ∀ (m : Memory) (a b : Nat), (∀ j < d.length, b ≠ (a + j) % cap) →
      Memory.find (Memory.writeSeq cap m a d) b = Memory.find m b := by
  induction d with
  | nil => exact fun _ _ _ _ => rfl
  | cons x d ih =>
    intro m a b h
    rw [Memory.writeSeq, ih _ _ _ fun j hj => ?_, find_write, if_neg]
    · simpa using h 0 (by simp)
    · have := h (j + 1) (by simpa using hj)
      rwa [show a + 1 + j = a + (j + 1) by omega]

/-- Addresses less than the capacity apart stay different modulo the capacity. -/
theorem mod_ne_of_lt {cap a i j : Nat} (hij : i < j) (hj : j < i + cap) :
    (a + i) % cap ≠ (a + j) % cap := by
  intro h
  have h1 : cap ∣ (a + j) - (a + i) := (Nat.modEq_iff_dvd' (by omega)).mp h
  have h2 := Nat.le_of_dvd (by omega) h1
  omega

/-- A sequence no longer than the capacity is read back in order. -/
theorem find_writeSeq_at {cap : Nat} (d : List Byte) :
    ∀ (m : Memory) (a j : Nat), d.length ≤ cap → (h : j < d.length) →
      Memory.find (Memory.writeSeq cap m a d) ((a + j) % cap) = some d[j] := by
  induction d with
  | nil => exact fun _ _ _ _ h => absurd h (by simp)
  | cons x d ih =>
    intro m a j hd h
    simp only [List.length_cons] at hd h
    rw [Memory.writeSeq]
    cases j with
    | zero =>
      rw [find_writeSeq_ne d _ _ _ fun j hj => ?_, find_write, if_pos (by simp)]
      · rfl
      · have := mod_ne_of_lt (cap := cap) (a := a) (i := 0) (j := j + 1) (by omega) (by omega)
        rwa [show a + 1 + j = a + (j + 1) by omega]
    | succ j =>
      have := ih (Memory.write m (a % cap) x) (a + 1) j (by omega) (by omega)
      rw [show a + (j + 1) = a + 1 + j by omega, this]
      rfl

/-- An address found once is found after any sequence of writes. -/
theorem isSome_find_writeSeq {cap : Nat} (d : List Byte) :
    ∀ (m : Memory) (a b : Nat), (Memory.find m b).isSome = true →
      (Memory.find (Memory.writeSeq cap m a d) b).isSome = true := by
  induction d with
  | nil => exact fun _ _ _ h => h
  | cons x d ih =>
    intro m a b h
    refine ih _ _ _ ?_
    rw [find_write]
    split_ifs
    · rfl
    · exact h

end Sys2Proof.Machine
end

