-- ==== Sys2Proof/Laws/PerInstr.lean ====
section
/-! SUPPORT. The per-instruction family EncodesToItsRow: the word of every command matches the row of
spec/opcode_table.json with its mnemonic. -/

namespace Sys2Proof.Laws

open Sys2Proof

/-- A table row whose mask and pattern agree with a word built from fields. -/
theorem holds_of_and {r : TableRow} {w : Word} (h : w &&& r.mask = r.pattern) :
    r.holds w = true := by simp [TableRow.holds, h]

/-- The word of the command matches the row of spec/opcode_table.json with its mnemonic. -/
def EncodesToItsRow.Statement (i : Instr) : Prop :=
  ∃ r ∈ opcodeTable, r.mnemonic = i.mnemonic ∧ r.holds (encode i) = true

theorem EncodesToItsRow.nop :
    EncodesToItsRow.Statement .nop := by
  refine ⟨⟨"NOP", 0xFFFFFFFF, 0x00000000⟩, by simp [opcodeTable], rfl, holds_of_and ?_⟩
  decide

theorem EncodesToItsRow.csrr (csr : BitVec 8) :
    EncodesToItsRow.Statement (.csrr csr) := by
  refine ⟨⟨"CSRR", 0xFF00FFFF, 0x01000000⟩, by simp [opcodeTable], rfl, holds_of_and ?_⟩
  change (0x01#8 ++ csr ++ 0#16) &&&
    (0xff#8 ++ 0#8 ++ 0xffff#16) =
    0x01#8 ++ 0#8 ++ 0#16
  simp only [BitVec.and_append, BitVec.and_zero]
  rfl

theorem EncodesToItsRow.csrw (csr : BitVec 8) (value : BitVec 16) :
    EncodesToItsRow.Statement (.csrw csr value) := by
  refine ⟨⟨"CSRW", 0xFF000000, 0x02000000⟩, by simp [opcodeTable], rfl, holds_of_and ?_⟩
  change (0x02#8 ++ csr ++ value) &&&
    (0xff#8 ++ 0#8 ++ 0#16) =
    0x02#8 ++ 0#8 ++ 0#16
  simp only [BitVec.and_append, BitVec.and_zero]
  rfl

theorem EncodesToItsRow.bufr (win : Window) (idx : BitVec 5) :
    EncodesToItsRow.Statement (.bufr win idx) := by
  refine ⟨⟨"BUFR", 0xFF20FFFF, 0x03000000⟩, by simp [opcodeTable], rfl, holds_of_and ?_⟩
  change (0x03#8 ++ windowBits win ++ 0#1 ++ idx ++ 0#16) &&&
    (0xff#8 ++ 0#2 ++ 0x1#1 ++ 0#5 ++ 0xffff#16) =
    0x03#8 ++ 0#2 ++ 0#1 ++ 0#5 ++ 0#16
  simp only [BitVec.and_append, BitVec.and_zero]
  rfl

theorem EncodesToItsRow.bufw (win : Window) (idx : BitVec 5) (byte : Byte) :
    EncodesToItsRow.Statement (.bufw win idx byte) := by
  refine ⟨⟨"BUFW", 0xFF20FF00, 0x04000000⟩, by simp [opcodeTable], rfl, holds_of_and ?_⟩
  change (0x04#8 ++ windowBits win ++ 0#1 ++ idx ++ 0#8 ++ byte) &&&
    (0xff#8 ++ 0#2 ++ 0x1#1 ++ 0#5 ++ 0xff#8 ++ 0#8) =
    0x04#8 ++ 0#2 ++ 0#1 ++ 0#5 ++ 0#8 ++ 0#8
  simp only [BitVec.and_append, BitVec.and_zero]
  rfl

theorem EncodesToItsRow.derive :
    EncodesToItsRow.Statement .derive := by
  refine ⟨⟨"DERIVE", 0xFFFFFFFF, 0x10000000⟩, by simp [opcodeTable], rfl, holds_of_and ?_⟩
  decide

theorem EncodesToItsRow.gentbl (chA chB : Byte) :
    EncodesToItsRow.Statement (.gentbl chA chB) := by
  refine ⟨⟨"GENTBL", 0xFFFF0000, 0x11000000⟩, by simp [opcodeTable], rfl, holds_of_and ?_⟩
  change (0x11#8 ++ 0#8 ++ chA ++ chB) &&&
    (0xff#8 ++ 0xff#8 ++ 0#8 ++ 0#8) =
    0x11#8 ++ 0#8 ++ 0#8 ++ 0#8
  simp only [BitVec.and_append, BitVec.and_zero]
  rfl

theorem EncodesToItsRow.hop :
    EncodesToItsRow.Statement .hop := by
  refine ⟨⟨"HOP", 0xFFFFFFFF, 0x12000000⟩, by simp [opcodeTable], rfl, holds_of_and ?_⟩
  decide

theorem EncodesToItsRow.flip :
    EncodesToItsRow.Statement .flip := by
  refine ⟨⟨"FLIP", 0xFFFFFFFF, 0x13000000⟩, by simp [opcodeTable], rfl, holds_of_and ?_⟩
  decide

theorem EncodesToItsRow.lookup (src : ChannelSource) (ch : BitVec 7) :
    EncodesToItsRow.Statement (.lookup src ch) := by
  refine ⟨⟨"LOOKUP", 0xFFFFFE80, 0x14000000⟩, by simp [opcodeTable], rfl, holds_of_and ?_⟩
  change (0x14#8 ++ 0#15 ++ channelSourceBit src ++ 0#1 ++ ch) &&&
    (0xff#8 ++ 0x7fff#15 ++ 0#1 ++ 0x1#1 ++ 0#7) =
    0x14#8 ++ 0#15 ++ 0#1 ++ 0#1 ++ 0#7
  simp only [BitVec.and_append, BitVec.and_zero]
  rfl

theorem EncodesToItsRow.pnrd (row : BitVec 3) (code : CodeSelect) (k : BitVec 4) :
    EncodesToItsRow.Statement (.pnrd row code k) := by
  refine ⟨⟨"PNRD", 0xFFFFF8E0, 0x15000000⟩, by simp [opcodeTable], rfl, holds_of_and ?_⟩
  change (0x15#8 ++ 0#13 ++ row ++ 0#3 ++ codeSelectBit code ++ k) &&&
    (0xff#8 ++ 0x1fff#13 ++ 0#3 ++ 0x7#3 ++ 0#1 ++ 0#4) =
    0x15#8 ++ 0#13 ++ 0#3 ++ 0#3 ++ 0#1 ++ 0#4
  simp only [BitVec.and_append, BitVec.and_zero]
  rfl

theorem EncodesToItsRow.bbind (nch proto : Byte) :
    EncodesToItsRow.Statement (.bbind nch proto) := by
  refine ⟨⟨"BBIND", 0xFFFF0000, 0x20000000⟩, by simp [opcodeTable], rfl, holds_of_and ?_⟩
  change (0x20#8 ++ 0#8 ++ nch ++ proto) &&&
    (0xff#8 ++ 0xff#8 ++ 0#8 ++ 0#8) =
    0x20#8 ++ 0#8 ++ 0#8 ++ 0#8
  simp only [BitVec.and_append, BitVec.and_zero]
  rfl

theorem EncodesToItsRow.vbind (capture matchId : Bool) :
    EncodesToItsRow.Statement (.vbind capture matchId) := by
  refine ⟨⟨"VBIND", 0xFFFFFFFC, 0x21000000⟩, by simp [opcodeTable], rfl, holds_of_and ?_⟩
  change (0x21#8 ++ 0#22 ++ BitVec.ofBool capture ++ BitVec.ofBool matchId) &&&
    (0xff#8 ++ 0x3fffff#22 ++ 0#1 ++ 0#1) =
    0x21#8 ++ 0#22 ++ 0#1 ++ 0#1
  simp only [BitVec.and_append, BitVec.and_zero]
  rfl

theorem EncodesToItsRow.bcmd (loss : Bool) (len : BitVec 5) :
    EncodesToItsRow.Statement (.bcmd loss len) := by
  refine ⟨⟨"BCMD", 0xFFFFFEE0, 0x22000000⟩, by simp [opcodeTable], rfl, holds_of_and ?_⟩
  change (0x22#8 ++ 0#15 ++ BitVec.ofBool loss ++ 0#3 ++ len) &&&
    (0xff#8 ++ 0x7fff#15 ++ 0#1 ++ 0x7#3 ++ 0#5) =
    0x22#8 ++ 0#15 ++ 0#1 ++ 0#3 ++ 0#5
  simp only [BitVec.and_append, BitVec.and_zero]
  rfl

theorem EncodesToItsRow.classify :
    EncodesToItsRow.Statement .classify := by
  refine ⟨⟨"CLASS", 0xFFFFFFFF, 0x23000000⟩, by simp [opcodeTable], rfl, holds_of_and ?_⟩
  decide

theorem EncodesToItsRow.ins (rb : Ring) (src : InsSource) (len : BitVec 5) :
    EncodesToItsRow.Statement (.ins rb src len) := by
  refine ⟨⟨"INS", 0xFFFEEFE0, 0x30000000⟩, by simp [opcodeTable], rfl, holds_of_and ?_⟩
  change (0x30#8 ++ 0#7 ++ ringBit rb ++ 0#3 ++ insSourceBit src ++ 0#7 ++ len) &&&
    (0xff#8 ++ 0x7f#7 ++ 0#1 ++ 0x7#3 ++ 0#1 ++ 0x7f#7 ++ 0#5) =
    0x30#8 ++ 0#7 ++ 0#1 ++ 0#3 ++ 0#1 ++ 0#7 ++ 0#5
  simp only [BitVec.and_append, BitVec.and_zero]
  rfl

theorem EncodesToItsRow.ext (rb : Ring) (max : BitVec 5) :
    EncodesToItsRow.Statement (.ext rb max) := by
  refine ⟨⟨"EXT", 0xFFFEFFE0, 0x31000000⟩, by simp [opcodeTable], rfl, holds_of_and ?_⟩
  change (0x31#8 ++ 0#7 ++ ringBit rb ++ 0#11 ++ max) &&&
    (0xff#8 ++ 0x7f#7 ++ 0#1 ++ 0x7ff#11 ++ 0#5) =
    0x31#8 ++ 0#7 ++ 0#1 ++ 0#11 ++ 0#5
  simp only [BitVec.and_append, BitVec.and_zero]
  rfl

theorem EncodesToItsRow.rbq (rb : Ring) :
    EncodesToItsRow.Statement (.rbq rb) := by
  refine ⟨⟨"RBQ", 0xFFFEFFFF, 0x32000000⟩, by simp [opcodeTable], rfl, holds_of_and ?_⟩
  change (0x32#8 ++ 0#7 ++ ringBit rb ++ 0#16) &&&
    (0xff#8 ++ 0x7f#7 ++ 0#1 ++ 0xffff#16) =
    0x32#8 ++ 0#7 ++ 0#1 ++ 0#16
  simp only [BitVec.and_append, BitVec.and_zero]
  rfl

theorem EncodesToItsRow.rbclr (rb : Ring) :
    EncodesToItsRow.Statement (.rbclr rb) := by
  refine ⟨⟨"RBCLR", 0xFFFEFFFF, 0x33000000⟩, by simp [opcodeTable], rfl, holds_of_and ?_⟩
  change (0x33#8 ++ 0#7 ++ ringBit rb ++ 0#16) &&&
    (0xff#8 ++ 0x7f#7 ++ 0#1 ++ 0xffff#16) =
    0x33#8 ++ 0#7 ++ 0#1 ++ 0#16
  simp only [BitVec.and_append, BitVec.and_zero]
  rfl

end Sys2Proof.Laws
end

