-- ==== Sys2Proof/Laws/Ring.lean ====
section
/-! SUPPORT. The ring primitives: how RbPush and RbDrop act on the number of held bytes and on the held
bytes themselves (20_memory.md R66-R70). -/

namespace Sys2Proof.Machine

open Sys2Proof

/-- After reset both storages are in canonical form (10_state.md R43, log 6). -/
theorem wf_reset (p : Params) (r : Ring) :
    Memory.wf ((State.resetWith p).ring r).store = true := by
  cases r <;> rfl

/-! ### The number of held bytes -/

theorem rbUsed_lt {s : State} {r : Ring} (h : 0 < s.params.rbCap) :
    rbUsed s r < s.params.rbCap := by
  have h1 := Int.emod_nonneg (((s.ring r).inIdx : Int) - (s.ring r).outIdx)
    (b := (s.params.rbCap : Int)) (by omega)
  have h2 := Int.emod_lt_of_pos (((s.ring r).inIdx : Int) - (s.ring r).outIdx)
    (b := (s.params.rbCap : Int)) (by omega)
  unfold rbUsed
  omega

/-- OUT plus the number of held bytes is IN, modulo the capacity. -/
theorem out_add_used {s : State} {r : Ring} (h : 0 < s.params.rbCap) :
    ((s.ring r).outIdx + rbUsed s r) % s.params.rbCap = (s.ring r).inIdx % s.params.rbCap := by
  have h1 := Int.emod_nonneg (((s.ring r).inIdx : Int) - (s.ring r).outIdx)
    (b := (s.params.rbCap : Int)) (by omega)
  have h2 : ((rbUsed s r : Nat) : Int)
      = (((s.ring r).inIdx : Int) - (s.ring r).outIdx) % (s.params.rbCap : Int) := by
    unfold rbUsed
    omega
  zify
  rw [h2, Int.add_emod_emod]
  congr 1
  omega

/-- The number of held bytes is the only number below the capacity that takes OUT to IN. -/
theorem rbUsed_eq_of {s : State} {r : Ring} {u : Nat} (h : u < s.params.rbCap)
    (hu : ((s.ring r).outIdx + u) % s.params.rbCap = (s.ring r).inIdx % s.params.rbCap) :
    rbUsed s r = u := by
  have hlt := rbUsed_lt (s := s) (r := r) (by omega)
  have h1 : (s.ring r).outIdx + rbUsed s r ≡ (s.ring r).outIdx + u [MOD s.params.rbCap] :=
    (out_add_used (by omega)).trans hu.symm
  have h2 := Nat.ModEq.add_left_cancel' _ h1
  rwa [Nat.ModEq, Nat.mod_eq_of_lt hlt, Nat.mod_eq_of_lt h] at h2

/-- The address `j` past the held bytes is the address `j` past IN, modulo the capacity. -/
theorem out_add_used_add {s : State} {r : Ring} (h : 0 < s.params.rbCap) (j : Nat) :
    ((s.ring r).outIdx + rbUsed s r + j) % s.params.rbCap
      = ((s.ring r).inIdx + j) % s.params.rbCap := by
  rw [Nat.add_mod, out_add_used h, ← Nat.add_mod]

theorem rbUsed_congr {s t : State} {r : Ring} (hr : t.ring r = s.ring r)
    (hp : t.params = s.params) : rbUsed t r = rbUsed s r := by
  simp [rbUsed, hr, hp]

theorem rbPeek_congr {s t : State} {r : Ring} (hr : t.ring r = s.ring r)
    (hp : t.params = s.params) (i : Nat) : rbPeek t r i = rbPeek s r i := by
  simp [rbPeek, hr, hp]

/-- The held bytes depend only on the ring and the parameters. -/
theorem rbHeld_congr {s t : State} {r : Ring} (hr : t.ring r = s.ring r)
    (hp : t.params = s.params) : rbHeld t r = rbHeld s r := by
  simp [rbHeld, rbUsed_congr hr hp, rbPeek, hr, hp]

@[simp] theorem length_rbHeld (s : State) (r : Ring) : (rbHeld s r).length = rbUsed s r := by
  simp [rbHeld]

theorem getElem_rbHeld {s : State} {r : Ring} {i : Nat} (h : i < (rbHeld s r).length) :
    (rbHeld s r)[i] = rbPeek s r i := by
  simp [rbHeld]

/-! ### RbPush -/

@[simp] theorem rbPush_params (s : State) (r : Ring) (d : List Byte) :
    (rbPush s r d).params = s.params := by simp [rbPush]

theorem rbPush_ring_ne (s : State) {r q : Ring} (d : List Byte) (h : q ≠ r) :
    (rbPush s r d).ring q = s.ring q := setRing_ring_ne s _ h

theorem rbPush_ring (s : State) (r : Ring) (d : List Byte) :
    (rbPush s r d).ring r =
      { inIdx := ((s.ring r).inIdx + d.length) % s.params.rbCap
        outIdx := (s.ring r).outIdx
        store := Memory.writeSeq s.params.rbCap (s.ring r).store (s.ring r).inIdx d } := by
  simp [rbPush]

/-- RbPush adds its bytes to the number held. -/
theorem rbUsed_push {s : State} {r : Ring} {d : List Byte}
    (h : rbUsed s r + d.length < s.params.rbCap) :
    rbUsed (rbPush s r d) r = rbUsed s r + d.length := by
  apply rbUsed_eq_of
  · simpa using h
  · simp only [rbPush_ring, rbPush_params, Nat.mod_mod]
    rw [← Nat.add_assoc, out_add_used_add (by omega)]

/-- RbPush appends its bytes to the held bytes. -/
theorem rbHeld_push {s : State} {r : Ring} {d : List Byte}
    (h : rbUsed s r + d.length < s.params.rbCap) :
    rbHeld (rbPush s r d) r = rbHeld s r ++ d := by
  refine List.ext_getElem (by simp [rbUsed_push h]) fun i h1 h2 => ?_
  rw [getElem_rbHeld]
  simp only [length_rbHeld, rbUsed_push h] at h1
  by_cases hi : i < rbUsed s r
  · rw [List.getElem_append_left (by simpa using hi), getElem_rbHeld]
    simp only [rbPeek, rbPush_ring, rbPush_params, Memory.read]
    rw [find_writeSeq_ne]
    intro j hj
    have hne := mod_ne_of_lt (cap := s.params.rbCap) (a := (s.ring r).outIdx)
      (i := i) (j := rbUsed s r + j) (by omega) (by omega)
    rwa [← Nat.add_assoc, out_add_used_add (by omega)] at hne
  · rw [List.getElem_append_right (by simpa using hi)]
    simp only [rbPeek, rbPush_ring, rbPush_params, Memory.read, length_rbHeld]
    have hin : ((s.ring r).outIdx + i) % s.params.rbCap
        = ((s.ring r).inIdx + (i - rbUsed s r)) % s.params.rbCap := by
      rw [show (s.ring r).outIdx + i = (s.ring r).outIdx + rbUsed s r + (i - rbUsed s r) by omega,
        out_add_used_add (by omega)]
    rw [hin, find_writeSeq_at d _ _ _ (by omega) (by omega)]
    rfl

/-! ### RbDrop -/

@[simp] theorem rbDrop_params (s : State) (r : Ring) (n : Nat) :
    (rbDrop s r n).params = s.params := by simp [rbDrop]

theorem rbDrop_ring_ne (s : State) {r q : Ring} (n : Nat) (h : q ≠ r) :
    (rbDrop s r n).ring q = s.ring q := setRing_ring_ne s _ h

theorem rbDrop_ring (s : State) (r : Ring) (n : Nat) :
    (rbDrop s r n).ring r =
      { s.ring r with outIdx := ((s.ring r).outIdx + n) % s.params.rbCap } := by
  simp [rbDrop]

/-- RbDrop takes its bytes off the number held. -/
theorem rbUsed_drop {s : State} {r : Ring} {n : Nat} (hc : 0 < s.params.rbCap)
    (h : n ≤ rbUsed s r) : rbUsed (rbDrop s r n) r = rbUsed s r - n := by
  have := rbUsed_lt (s := s) (r := r) hc
  apply rbUsed_eq_of
  · simp only [rbDrop_params]
    omega
  · simp only [rbDrop_ring, rbDrop_params, Nat.mod_add_mod]
    rw [show (s.ring r).outIdx + n + (rbUsed s r - n) = (s.ring r).outIdx + rbUsed s r by omega,
      out_add_used hc]

theorem rbPeek_drop (s : State) (r : Ring) (n i : Nat) :
    rbPeek (rbDrop s r n) r i = rbPeek s r (n + i) := by
  simp [rbPeek, rbDrop_ring, Nat.mod_add_mod, Nat.add_assoc]

/-- RbDrop takes bytes off the front of the held bytes. -/
theorem rbHeld_drop {s : State} {r : Ring} {n : Nat} (hc : 0 < s.params.rbCap)
    (h : n ≤ rbUsed s r) : rbHeld (rbDrop s r n) r = (rbHeld s r).drop n := by
  refine List.ext_getElem (by simp [rbUsed_drop hc h]) fun i h1 h2 => ?_
  rw [getElem_rbHeld, rbPeek_drop, List.getElem_drop, getElem_rbHeld]

/-! ### The zeros EXT discards -/

theorem leadingZeros_le (l : List Byte) : leadingZeros l ≤ l.length :=
  (List.takeWhile_prefix _).length_le

theorem zerosDiscarded_le (s : State) (r : Ring) : zerosDiscarded s r ≤ rbUsed s r := by
  unfold zerosDiscarded
  split
  · simpa using leadingZeros_le (rbHeld s r)
  · omega

theorem drop_leadingZeros (l : List Byte) : l.drop (leadingZeros l) = l.dropWhile (· == 0) := by
  induction l with
  | nil => rfl
  | cons b l ih =>
    simp only [leadingZeros] at ih ⊢
    by_cases hb : b = 0
    · rw [List.takeWhile_cons_of_pos (by simpa using hb), List.dropWhile_cons_of_pos (by simpa using hb),
        List.length_cons, List.drop_succ_cons, ih]
    · rw [List.takeWhile_cons_of_neg (by simpa using hb), List.dropWhile_cons_of_neg (by simpa using hb)]
      rfl

end Sys2Proof.Machine
end

