-- ==== Sys2Proof/Laws/Step.lean ====
section
/-! SUPPORT. What one step does when a command waits in the port, and what no command's effect
touches. -/

namespace Sys2Proof.Machine

open Sys2Proof

theorem errMask_eq (e : ErrCode) : errMask e = errBit e := by cases e <;> rfl

/-- The error effect in the terms of Safety.lean (60_exceptions.md R232). -/
theorem raise_eq_afterError (s : State) (e : ErrCode) : s.raise e = afterError s e := by
  simp [State.raise, afterError, errMask_eq]

/-- A step with a command word in the port: an error for a word that is no command, the command
otherwise (30_encoding.md R93). -/
theorem step_of_port {s : State} {w : Word} {rest : List Word} (h : s.port = w :: rest) :
    step s =
      match decode w with
      | .error e => fail { s with port := rest } (decodeErrCode e)
      | .ok i => exec i { s with port := rest } := by
  cases s
  cases h
  rfl

@[simp] theorem takeBytes_port (r : Ring) (m : Nat) (s : State) :
    (takeBytes r m s).port = s.port := by simp [takeBytes, rbDrop]
@[simp] theorem takeBytes_responses (r : Ring) (m : Nat) (s : State) :
    (takeBytes r m s).responses = s.responses := by simp [takeBytes, rbDrop]
@[simp] theorem takeBytes_params (r : Ring) (m : Nat) (s : State) :
    (takeBytes r m s).params = s.params := by simp [takeBytes, rbDrop]
@[simp] theorem takeBytes_err (r : Ring) (m : Nat) (s : State) :
    (takeBytes r m s).err = s.err := by simp [takeBytes, rbDrop]

/-- The effect of a command leaves the port, the responses and the parameters alone, and ERR too
unless it is a CSRW. -/
theorem effect_frame {i : Instr} {s u : State} (h : Effect i s u) :
    u.port = s.port ∧ u.responses = s.responses ∧ u.params = s.params ∧
      ((∀ a v, i ≠ .csrw a v) → u.err = s.err) := by
  cases i with
  | csrw a v =>
    obtain ⟨c, -, h⟩ := h
    refine ⟨?_, ?_, ?_, fun hn => absurd rfl (hn a v)⟩
    all_goals
      rcases csrWrite_cases h with ⟨-, rfl⟩ | ⟨-, rfl⟩ | ⟨-, rfl⟩ | ⟨-, rfl⟩ | ⟨-, -, -, rfl⟩ |
        ⟨-, rfl⟩ | ⟨-, -, rfl⟩ <;> rfl
  | bufw win idx b =>
    obtain ⟨_, _, rfl⟩ := h
    cases win <;> exact ⟨rfl, rfl, rfl, fun _ => rfl⟩
  | gentbl a b =>
    obtain ⟨_, _, rfl⟩ | ⟨_, _, _, _, rfl⟩ := h <;> exact ⟨rfl, rfl, rfl, fun _ => rfl⟩
  | hop => obtain ⟨_, rfl⟩ := h; exact ⟨rfl, rfl, rfl, fun _ => rfl⟩
  | bbind => obtain ⟨_, rfl⟩ := h; exact ⟨rfl, rfl, rfl, fun _ => rfl⟩
  | bcmd => obtain ⟨_, rfl⟩ := h; exact ⟨rfl, rfl, rfl, fun _ => rfl⟩
  | vbind => obtain ⟨_, rfl⟩ | rfl := h <;> exact ⟨rfl, rfl, rfl, fun _ => rfl⟩
  | ins r => obtain ⟨_, _, rfl⟩ | rfl := h <;> simp [rbPush]
  | ext r => obtain ⟨_, rfl⟩ := h; simp [rbDrop]
  | rbclr r => cases h; simp
  | _ => cases h; exact ⟨rfl, rfl, rfl, fun _ => rfl⟩

/-- What a step that answers a command has done: raised an error, or run a decoded command. -/
theorem step_cases {s t : State} {w : Word} {rest : List Word} (hp : s.port = w :: rest)
    (h : step s = .next t) :
    (∃ e, t = afterError { s with port := rest } e) ∨
      ∃ i u d, decode w = .ok i ∧ t = u.respond d ∧ Effect i { s with port := rest } u := by
  rw [step_of_port hp] at h
  split at h
  · rw [fail_inj h, raise_eq_afterError]
    exact .inl ⟨_, rfl⟩
  · rename_i i hi
    rcases exec_cases h with ⟨e, rfl⟩ | ⟨u, d, rfl, hE⟩
    · rw [raise_eq_afterError]
      exact .inl ⟨_, rfl⟩
    · exact .inr ⟨i, u, d, hi, rfl, hE⟩

end Sys2Proof.Machine
end

