-- ==== Sys2Proof/Tests/Slice0.lean ====
section
/-! SUPPORT. Tests of one decode or one step each, with expected values from spec/95_test_vectors.md and
the rules' own examples, and, after them, a witness for the hypotheses of every obligation. -/

namespace Sys2Proof.Tests

open Sys2Proof Sys2Proof.Machine

/-! ### Ill-formed terms, one for each check -/

theorem test_wf_undefined_opcode : Word.opcodeDefined 0x05000000 = false := by decide
theorem test_wf_defined_opcode : Word.opcodeDefined 0x04800005 = true := by decide
theorem test_wf_reserved_bit : Word.reservedZero 0x03200000 = false := by decide
theorem test_wf_word_refused : Word.wellFormed 0x00000001 = false := by decide
theorem test_wf_word_accepted : Word.wellFormed 0x3001100E = true := by decide
theorem test_wf_csrr_bad_csr : Instr.wellFormed (.csrr 0x0C) = false := by decide
theorem test_wf_csrw_bad_csr : Instr.wellFormed (.csrw 0xFF 0) = false := by decide
theorem test_wf_csrw_read_only : Instr.wellFormed (.csrw 0x07 0) = false := by decide
theorem test_wf_csrw_rx_len : Instr.wellFormed (.csrw 0x0B 17) = false := by decide
theorem test_wf_bufr_rxp : Instr.wellFormed (.bufr .rxp 16) = false := by decide
theorem test_wf_bufr_cht : Instr.wellFormed (.bufr .cht 23) = false := by decide
theorem test_wf_bufw_cht : Instr.wellFormed (.bufw .cht 0 1) = false := by decide
theorem test_wf_bufw_txp : Instr.wellFormed (.bufw .txp 16 1) = false := by decide
theorem test_wf_pnrd_row : Instr.wellFormed (.pnrd 5 .data 0) = false := by decide
theorem test_wf_pnrd_index : Instr.wellFormed (.pnrd 0 .sop 8) = false := by decide
theorem test_wf_bcmd : Instr.wellFormed (.bcmd false 15) = false := by decide
theorem test_wf_ins_stg : Instr.wellFormed (.ins .h2r .stg 17) = false := by decide
theorem test_wf_ins_rxp : Instr.wellFormed (.ins .r2h .rxpPayload 15) = false := by decide
theorem test_wf_ext : Instr.wellFormed (.ext .r2h 17) = false := by decide

/-! ### Decoding, the words written out from 30_encoding.md R82, R84 -/

theorem test_decode_nop : decode 0x00000000 = .ok .nop := by decide
theorem test_decode_csrr : decode 0x010C0000 = .ok (.csrr 0x0C) := by decide
theorem test_decode_csrw : decode 0x0200F239 = .ok (.csrw 0x00 0xF239) := by decide
theorem test_decode_bufr :
    decode (0b00000011#8 ++ 0b01#2 ++ 0#1 ++ 0b01011#5 ++ 0#16) = .ok (.bufr .txp 11) := by decide
theorem test_decode_bufw :
    decode (0b00000100#8 ++ 0b10#2 ++ 0#1 ++ 0b01111#5 ++ 0#8 ++ 0xAA#8) = .ok (.bufw .stg 15 0xAA) := by
  decide
theorem test_decode_derive : decode 0x10000000 = .ok .derive := by decide
theorem test_decode_gentbl : decode 0x11000C28 = .ok (.gentbl 12 40) := by decide
theorem test_decode_hop : decode 0x12000000 = .ok .hop := by decide
theorem test_decode_flip : decode 0x13000000 = .ok .flip := by decide
theorem test_decode_lookup :
    decode (0b00010100#8 ++ 0#15 ++ 1#1 ++ 0#1 ++ 0b1001100#7) = .ok (.lookup .operand 76) := by decide
theorem test_decode_pnrd :
    decode (0b00010101#8 ++ 0#13 ++ 0b100#3 ++ 0#3 ++ 1#1 ++ 0b1000#4) = .ok (.pnrd 4 .data 8) := by decide
theorem test_decode_bbind : decode 0x20000601 = .ok (.bbind 6 1) := by decide
theorem test_decode_vbind : decode (0b00100001#8 ++ 0#22 ++ 0b10#2) = .ok (.vbind true false) := by decide
theorem test_decode_bcmd :
    decode (0b00100010#8 ++ 0#15 ++ 1#1 ++ 0#3 ++ 0b00010#5) = .ok (.bcmd true 2) := by decide
theorem test_decode_class : decode 0x23000000 = .ok .classify := by decide
theorem test_decode_ins :
    decode (0b00110000#8 ++ 0#7 ++ 1#1 ++ 0#3 ++ 1#1 ++ 0#7 ++ 0b01110#5) = .ok (.ins .r2h .rxpPayload 14) := by
  decide
theorem test_decode_ext : decode (0b00110001#8 ++ 0#7 ++ 1#1 ++ 0#11 ++ 0b10000#5) = .ok (.ext .r2h 16) := by
  decide
theorem test_decode_rbq : decode 0x32010000 = .ok (.rbq .r2h) := by decide
theorem test_decode_rbclr : decode 0x33000000 = .ok (.rbclr .h2r) := by decide
theorem test_decode_illegal : decode 0xFF123456 = .error .illegalOpcode := by decide
theorem test_decode_reserved : decode 0x10000001 = .error .reservedNonzero := by decide
theorem test_decode_table_word : decodeTableWord 32 0x14000105 = some (.lookup .operand 5) := by decide

/-! ### Assembling, the lines and words of 95_test_vectors.md -/

theorem test_assemble_lines :
    assemble "SETID 0xF239B777 ; MID\nvbind.mc\n" = some [0x0200F239, 0x0201B777, 0x21000003] := by decide
theorem test_assemble_window : assemble "BUFR TXP[11]" = some [0x034B0000] := by decide
theorem test_assemble_ldstg : assemble "LDSTG 0x01, 2" = some [0x04800001, 0x04810002] := by decide
theorem test_assemble_no_command : assemble "EXT STG, 4" = none := by decide

/-! ### States to step from -/

/-- The state after one command (the state itself should the command stop). -/
def after (s : State) (i : Instr) : State :=
  match exec i s with
  | .next t => t
  | _ => s

/-- Status and data of the response of the command with word `w`. -/
def answer (s : State) (w : Nat) : Option (Nat × Nat) :=
  match step (s.withFetchWord 32 w) with
  | .next t => t.responses.getLast?.map fun r => ((statusBits r.status).toNat, r.data.toNat)
  | _ => none

/-- The placeholder PN_ROM of 95_test_vectors.md. -/
def testRom : PnRom := Vector.ofFn fun r : Fin 5 => Vector.ofFn fun c : Fin 9 =>
  Vector.ofFn fun k : Fin 8 => BitVec.ofNat 8 (r.val * 0x40 + c.val * 8 + k.val)

/-- Reset, with the placeholder PN_ROM. -/
def start : State := State.resetWith { Params.default with pnRom := testRom }

/-- MID F239B777. -/
def withId : State := { start with mid := #v[0xF2, 0x39, 0xB7, 0x77] }

/-- MID F239B777 after GENTBL 12, 40 and DERIVE. -/
def withPair : State := after (after withId (.gentbl 12 40)) .derive

/-- MID F239B777 with its DSMX table (95_test_vectors.md section 2.2), after DERIVE. -/
def withTable : State :=
  { withId with
    proto := .dsmx, tblLen := 23, tvalid := true, crcCur := 0x0DC6
    cht := #v[29, 5, 25, 67, 9, 41, 35, 23, 47, 65, 17, 57, 13, 71, 55, 75, 15, 31, 21, 59, 49, 51, 61] }

/-- The bind packet of F239B777 (6, 1) in RXP. -/
def withBind : State :=
  { withId with
    rxp := #v[0x0D, 0xC6, 0x48, 0x88, 0x0D, 0xC6, 0x48, 0x88, 0x04, 0xB6, 0x01, 0x06, 0x01, 0x00, 0x05, 0x78]
    rxLen := 16 }

/-- A packet with header bytes `a` and `b` in RXP. -/
def withHeader (a b : Byte) : State := { withId with rxp := (start.rxp.set 0 a).set 1 b, rxLen := 16 }

/-- STG holds 00 00 03 AA BB CC. -/
def withStg : State :=
  { withId with stg := #v[0, 0, 3, 0xAA, 0xBB, 0xCC, 0, 0, 0, 0, 0, 0, 0, 0, 0, 0] }

/-- H2R holds 00 00 03 AA BB CC. -/
def withFrame : State := after withStg (.ins .h2r .stg 6)

/-- The same with FRM0 = 1. -/
def withFramed : State := { withFrame with frm0 := true }

/-- RB_CAP = 8, STG holds 01 .. 08 and R2H is full with 01 .. 07. -/
def withFull : State :=
  after { start with
    params := { Params.default with rbCap := 8 }
    stg := #v[1, 2, 3, 4, 5, 6, 7, 8, 0, 0, 0, 0, 0, 0, 0, 0] } (.ins .r2h .stg 7)

/-! ### One step each -/

theorem test_nop : answer start 0x00000000 = some (0, 0) := by decide
theorem test_csrr_crc_base : answer start 0x01040000 = some (0, 0x0000FFFF) := by decide
theorem test_csrr_absent : answer start 0x010C0000 = some (3, 0) := by decide
theorem test_csrw_id_hi :
    (after start (.csrw 0x00 0xF239)).mid = #v[0xF2, 0x39, 0, 0] := by decide
theorem test_csrw_cfg_invalidates :
    (after withPair (.csrw 0x02 0x0003)).tvalid = false ∧ (after withPair (.csrw 0x02 0x0003)).tblLen = 2 := by
  decide
theorem test_csrw_read_only : answer start 0x02070000 = some (4, 0) := by decide
theorem test_csrw_hop_idx_no_table : answer start 0x02060000 = some (5, 0) := by decide
theorem test_csrw_err_clears : (after { start with err := 0x0C } (.csrw 0x09 0x0010)).err = 0x04 := by decide
theorem test_bufr_after_bbind : answer (after withId (.bbind 6 1)) 0x034B0000 = some (0, 6) := by decide
theorem test_bufr_past_end : answer start 0x03D70000 = some (6, 0) := by decide
theorem test_bufw_stg : (after start (.bufw .stg 0 0x05)).stg[0] = 5 := by decide
theorem test_bufw_cht : answer start 0x04DE0001 = some (4, 0) := by decide
theorem test_derive : answer withId 0x10000000 = some (0, 0x001C0DC6) := by decide
theorem test_derive_reset : answer start 0x10000000 = some (0, 0x002AFFFF) := by decide
theorem test_gentbl_dsm2 : answer start 0x1100034C = some (0, 0x00000002) := by decide
theorem test_gentbl_dsmx :
    answer { withId with mid := #v[0xDC, 0x72, 0x96, 0x4F], proto := .dsmx } 0x11000000 = some (0, 0x00008817) := by
  decide +kernel
theorem test_gentbl_dsmx_table :
    (after { withId with proto := .dsmx } (.gentbl 0 0)).cht = withTable.cht := by decide +kernel
theorem test_hop : answer withPair 0x12000000 = some (0, 0xF2390128) := by decide
theorem test_hop_wraps :
    answer { withTable with hopIdx := 22, crcCur := 0x0DC6 } 0x12000000 = some (0, 0xF239001D) := by decide
theorem test_flip : answer withPair 0x13000000 = some (0, 0x0000F239) := by decide
theorem test_lookup_table : answer withPair 0x14000000 = some (0, 0x710C0DC6) := by decide
theorem test_lookup_dsmx_zero : answer withTable 0x14000100 = some (0, 0x71800DC6) := by decide
theorem test_pnrd_data : answer withId 0x1500021F = some (0, 0xA7) := by decide
theorem test_pnrd_sop_past_end : answer withId 0x15000008 = some (6, 0) := by decide
theorem test_bbind : answer withId 0x20000601 = some (0, 0x04B60578) := by decide
theorem test_bbind_ones :
    answer { withId with mid := #v[0xFF, 0xFF, 0xFF, 0xFF] } 0x2000FFFF = some (0, 0x017003E0) := by decide
theorem test_vbind_capture : answer { withBind with mid := #v[1, 2, 3, 4] } 0x21000002 = some (0, 0x5F) := by
  decide
theorem test_vbind_corrupted :
    answer { withBind with rxp := withBind.rxp.set 14 4 } 0x21000000 = some (0, 0x2E) := by decide
theorem test_bcmd_dsm2 : answer withId 0x22000102 = some (0, 0x00008A48) := by decide
theorem test_bcmd_wraps :
    answer { withTable with mid := #v[0, 0, 0, 0xFF] } 0x22000100 = some (0, 0x00000100) := by decide
theorem test_class_bind : answer withBind 0x23000000 = some (0, 0x00003E09) := by decide
theorem test_class_plus2 : answer (withHeader 0x48 0x8A) 0x23000000 = some (0, 0x0000021E) := by decide
theorem test_ins : answer withStg 0x30000006 = some (0, 0x00060001) := by decide
theorem test_ins_refused : answer withFull 0x30010001 = some (0, 0x00070000) := by decide
theorem test_ext_framed : answer withFramed 0x31000010 = some (0, 0x00020004) := by decide
theorem test_ext_unframed : answer withFrame 0x31000004 = some (0, 0x00000004) := by decide
theorem test_rbq_framed : answer withFramed 0x32000000 = some (0, 0x00303006) := by decide
theorem test_rbq_incomplete :
    answer (after { start with stg := start.stg.set 0 2 |>.set 1 0x11 } (.ins .h2r .stg 2)) 0x32000000
      = some (0, 0x00002002) := by decide
theorem test_rbclr : rbUsed (after withFrame (.rbclr .h2r)) .h2r = 0 := by decide

/-! ### Witnesses: states and operands that meet the hypotheses of the obligations -/

theorem test_witness_encodeOfDecode : decode 0x04030012 = .ok (.bufw .rxp 3 0x12) := by decide

theorem test_witness_decodeFollowsOpcodeTable : decode 0x22000102 = .ok (.bcmd true 2) ∧
    (∃ r ∈ opcodeTable, r.holds 0x22000102 = true) := by decide

/-- Both ends of each illegal range. -/
theorem test_witness_undefinedOpcodes : ∀ n ∈ [0x05000000, 0x0F000000, 0x16000000, 0x1FFFFFFF,
    0x24000000, 0x2F000001, 0x34000000, 0xFF123456],
    (deliverNext start (BitVec.ofNat 32 n)).port = [BitVec.ofNat 32 n] ∧
      ∃ op : Nat, op = ((BitVec.ofNat 32 n).extractLsb' 24 8).toNat ∧
        ((0x05 ≤ op ∧ op ≤ 0x0F) ∨ (0x16 ≤ op ∧ op ≤ 0x1F) ∨ (0x24 ≤ op ∧ op ≤ 0x2F) ∨ 0x34 ≤ op) := by
  simp only [exists_eq_left]
  decide

/-- One reserved bit set in each format that has reserved bits. -/
theorem test_witness_reservedBits : ∀ x ∈ [(0x00, 0x000000#24, 0x00000001#32), (0x01, 0xFF0000#24, 0x01008000#32),
    (0x03, 0xDF0000#24, 0x03200000#32), (0x04, 0xDF00FF#24, 0x04000100#32), (0x10, 0x000000#24, 0x10800000#32),
    (0x11, 0x00FFFF#24, 0x11010000#32), (0x12, 0x000000#24, 0x12000001#32), (0x13, 0x000000#24, 0x13000001#32),
    (0x14, 0x00017F#24, 0x14000080#32), (0x15, 0x00071F#24, 0x15000020#32), (0x20, 0x00FFFF#24, 0x20010000#32),
    (0x21, 0x000003#24, 0x21000004#32), (0x22, 0x00011F#24, 0x22000020#32), (0x23, 0x000000#24, 0x23000001#32),
    (0x30, 0x01101F#24, 0x30000020#32), (0x31, 0x01001F#24, 0x31001000#32), (0x32, 0x010000#24, 0x32000001#32),
    (0x33, 0x010000#24, 0x33020000#32)],
    (deliverNext start x.2.2).port = [x.2.2] ∧ (x.2.2.extractLsb' 24 8).toNat = x.1 ∧
      x.2.2.extractLsb' 0 24 &&& ~~~x.2.1 ≠ 0 := by decide

theorem test_witness_stepRunsDecodedCommand : (deliverNext withPair 0x12000000).port = [0x12000000] ∧
    decode 0x12000000 = .ok .hop := by decide

theorem test_witness_idleStep : start.port = [] := rfl

theorem test_witness_resetLeaves : (∃ p, start = State.resetWith p) ∧
    ∃ s, portEvent .reset withTable = portEvent .reset s := ⟨⟨_, rfl⟩, _, rfl⟩

/-- A command word in the port, one that ends with OK and one that ends with an error. -/
theorem test_witness_oneResponse :
    (∃ t, (deliverNext start 0x10000000).port = [0x10000000] ∧
      step (deliverNext start 0x10000000) = .next t) ∧
    ∃ t, (deliverNext start 0x12000000).port = [0x12000000] ∧
      step (deliverNext start 0x12000000) = .next t ∧
      t.responses = (deliverNext start 0x12000000).responses ++ [⟨.err .noTable, 0⟩] :=
  ⟨⟨_, rfl, rfl⟩, _, rfl, rfl, rfl⟩

/-- An ERR bit that a command keeps, and one that a CSRW ERR clears. -/
theorem test_witness_errSticky :
    (∃ t, step (deliverNext { start with err := 0x20 } 0x00000000) = .next t ∧ t.err.getLsbD 5 = true) ∧
    ∃ t, step (deliverNext { start with err := 0x21 } 0x02090040) = .next t ∧
      (deliverNext { start with err := 0x21 } 0x02090040).err.getLsbD 5 = true ∧
      t.err.getLsbD 5 = false ∧ t.err.getLsbD 0 = true :=
  ⟨⟨_, rfl, by decide⟩, _, rfl, by decide, by decide, by decide⟩

theorem test_witness_errClearedByCsrw : ∃ t, exec (.csrw 0x09 0x0002) { start with err := 0x3F } = .next t ∧
    BitVec.getLsbD (w := 16) 0x0002 (0 + 1) = true ∧ ({ start with err := 0x3F } : State).err &&& errBit .badOperand ≠ 0 :=
  ⟨_, rfl, by decide, by decide⟩

/-- The field invariant at the last index of both kinds of table and with RX_LEN 16, and a step. -/
theorem test_witness_fieldInv : FieldInv { withTable with hopIdx := 22, rxLen := 16, err := 0x3F } ∧
    FieldInv { withPair with hopIdx := 1 } ∧
    ∃ t, step (deliverNext { withPair with hopIdx := 1 } 0x12000000) = .next t :=
  ⟨by decide, by decide, _, rfl⟩

/-- Sound rings: one full with RB_CAP 8, one holding a frame; and a step that answers. -/
theorem test_witness_ringsInv : RingsInv withFull ∧ RingsInv withFramed ∧
    ∃ t, step (deliverNext withFull 0x31010010) = .next t := ⟨by decide, by decide, _, rfl⟩

theorem test_witness_tableInv_dsm2 : TableInv withPair ∧ withPair.tvalid = true ∧ withPair.tblLen = 2 := by
  refine ⟨fun _ => ⟨by decide, by decide⟩, by decide, by decide⟩

theorem test_witness_tableInv_dsmx : TableInv withTable ∧ TableInv { withTable with hopIdx := 22 } ∧
    withTable.tvalid = true ∧ withTable.tblLen = 23 := by
  refine ⟨fun _ => ⟨rfl, 61, ?_⟩, fun _ => ⟨rfl, 61, ?_⟩, rfl, rfl⟩ <;> decide +kernel

theorem test_witness_tableInv_step : ∃ t, step (deliverNext withPair 0x0200F239) = .next t := ⟨_, rfl⟩

theorem test_witness_resetParams : ({ Params.default with rbCap := 2 } : Params).Legal ∧
    ({ Params.default with rbCap := 4096 } : Params).Legal := by decide

theorem test_witness_inv : Inv withPair := by
  refine ⟨by decide, by decide, fun _ => ⟨by decide, by decide⟩⟩

/-- Commands that do change the state of each clause of OnlyTheseCommandsWrite. -/
theorem test_witness_onlyTheseCommandsWrite :
    (after start (.csrw 0x01 1)).mid ≠ start.mid ∧
    (after { withBind with mid := #v[1, 2, 3, 4] } (.vbind true false)).mid ≠ #v[1, 2, 3, 4] ∧
    (after start (.csrw 0x02 1)).proto ≠ start.proto ∧
    (after start .derive).crcCur ≠ start.crcCur ∧
    (after withPair .hop).hopIdx ≠ withPair.hopIdx ∧
    (after start (.gentbl 3 76)).tblLen ≠ start.tblLen ∧
    (after withBind (.vbind true true)).bindNch ≠ withBind.bindNch ∧
    (after start (.csrw 0x0B 16)).rxLen ≠ start.rxLen ∧
    (after start (.bufw .rxp 15 1)).rxp ≠ start.rxp ∧
    (after start (.bcmd false 14)).txp ≠ start.txp ∧
    (after withFramed (.ext .h2r 16)).stg ≠ withFramed.stg ∧
    (after withStg (.ins .r2h .stg 1)).ring .r2h ≠ withStg.ring .r2h := by decide

theorem test_witness_tableInvalidation : (∃ t, exec (.csrw 0x00 0xF239) withPair = .next t ∧ t.tvalid = false) ∧
    ∃ t, exec (.gentbl 12 40) withId = .next t ∧ withId.tvalid = false ∧ t.tvalid = true :=
  ⟨⟨_, rfl, rfl⟩, _, rfl, rfl, rfl⟩

/-- A reading command that answers and one that fails. -/
theorem test_witness_reads : (∃ t, exec (.rbq .h2r) withFrame = .next t) ∧
    ∃ t, exec (.lookup .table 0) start = .next t := ⟨⟨_, rfl⟩, _, rfl⟩

/-- An operand past its range, operands at the end of theirs, and each state condition. -/
theorem test_witness_operandRanges : Instr.wellFormed (.ext .h2r 17) = false ∧
    Instr.wellFormed (.ext .h2r 16) = true ∧ withPair.tvalid = true ∧
    Instr.wellFormed (.csrw 0x06 1) = true ∧ (1#16).toNat < withPair.tblLen.toNat ∧
    withPair.proto = .dsm2 ∧ 3 ≤ (3#8).toNat ∧ (76#8).toNat ≤ 76 := by decide

theorem test_witness_nop : (deliverNext start 0x00800000).port = [0x00800000] ∧
    ((0x00800000 : Word).extractLsb' 24 8).toNat = 0x00 ∧ (0x00800000 : Word) ≠ 0 := by decide

theorem test_witness_csr_absent : 0x0B < (0x0C#8).toNat ∧ 0x0B < (0xFF#8).toNat := by decide

/-- Each clause of CSRW HOP_IDX and CSRW RX_LEN at its boundary. -/
theorem test_witness_csrw : start.tvalid = false ∧
    (withPair.tvalid = true ∧ withPair.tblLen.toNat ≤ (2#16).toNat) ∧
    (withPair.tvalid = true ∧ (1#16).toNat < withPair.tblLen.toNat) ∧
    16 < (17#16).toNat ∧ (16#16).toNat ≤ 16 := by decide

/-- Window indices at and past both ends. -/
theorem test_witness_windowIndex : (15#5).toNat < 16 ∧ 16 ≤ (16#5).toNat ∧ (22#5).toNat < 23 ∧
    23 ≤ (23#5).toNat ∧ Window.stg ≠ .cht := by decide

theorem test_witness_loadStg : (List.replicate 16 (1 : Byte)).length ≤ 16 := by decide

/-- A DSM2 pair at both ends, and each refused one. -/
theorem test_witness_gentblDsm2 : start.proto = .dsm2 ∧ 3 ≤ (3#8).toNat ∧ (3#8).toNat ≤ 76 ∧
    3 ≤ (76#8).toNat ∧ (76#8).toNat ≤ 76 ∧ (3#8 : Byte) ≠ 76 ∧
    (2#8).toNat < 3 ∧ 76 < (77#8).toNat := by decide

theorem test_witness_gentblDsmx : withTable.proto = .dsmx := rfl

theorem test_witness_dsmxTable : dsmxTable start.params withTable.mid =
    some (withTable.cht.toList.map BitVec.toNat, 61) := by decide +kernel

/-- HOP without a table, and at the last index of both kinds of table. -/
theorem test_witness_hop : start.tvalid = false ∧
    (withPair.tvalid = true ∧ FieldInv { withPair with hopIdx := 1 }) ∧
    withTable.tvalid = true ∧ FieldInv { withTable with hopIdx := 22 } := by decide

/-- LOOKUP without a table, and with the last entry of one. -/
theorem test_witness_lookup : start.tvalid = false ∧ withPair.tvalid = true ∧
    FieldInv { withPair with hopIdx := 1 } ∧ TableInv { withPair with hopIdx := 1 } :=
  ⟨rfl, rfl, by decide, fun _ => ⟨by decide, by decide⟩⟩

/-- PNRD operands at and past the end of each range. -/
theorem test_witness_pnrd : 4 < (5#3).toNat ∧ (4#3).toNat ≤ 4 ∧ 7 < (8#4).toNat ∧ (7#4).toNat < 8 ∧
    sopNumber withId < 9 ∧ 7 - sopNumber start + (15#4).toNat / 8 < 9 := by decide

theorem test_witness_bbind : ∃ t1 t2 : Nat,
    t1 = 368 + 2 * ((255 - withId.mid[0].toNat) + (255 - withId.mid[1].toNat) + (255 - withId.mid[2].toNat)
      + (255 - withId.mid[3].toNat)) ∧
    t2 = t1 + t1 / 256 + t1 % 256 + 1 + (6#8).toNat + (1#8).toNat := ⟨1206, 1400, by decide, by decide⟩

/-- VBIND.MC of a packet that is accepted, of one with another id, and of a corrupted one. -/
theorem test_witness_vbind : (BindTest withBind ∧ IdTest withBind) ∧
    (BindTest { withBind with mid := #v[1, 2, 3, 4] } ∧ ¬ IdTest { withBind with mid := #v[1, 2, 3, 4] }) ∧
    ¬ BindTest { withBind with rxp := withBind.rxp.set 14 4 } := by decide

theorem test_witness_bindMutation : (after withId (.bbind 6 1)).txp[(15 : Fin 16)] ≠ 0x79 := by decide

/-- BCMD of 14 bytes and of 15. -/
theorem test_witness_bcmd : headerNumber withId.proto withId.mid[2] = 0x48 ∧
    (headerNumber withId.proto withId.mid[3] + 1 + bit (true = true)) % 256 = 0x8A ∧
    14 < (15#5).toNat ∧ (14#5).toNat ≤ 14 := by decide

/-- Each branch of CLASS. -/
theorem test_witness_class : ¬ LenTest { withBind with rxLen := 15 } ∧ BindTest withBind ∧
    (Header0Test (withHeader 0x48 0x89) ∧ offNumber (withHeader 0x48 0x89) = 1) ∧
    (Header0Test (withHeader 0x48 0x8A) ∧ offNumber (withHeader 0x48 0x8A) = 2 ∧
      (withHeader 0x48 0x8A).clsPlus2 = true) ∧
    (Header0Test (withHeader 0x48 0x88) ∧ offNumber (withHeader 0x48 0x88) = 0) ∧
    ¬ Header0Test (withHeader 0x49 0x89) := by decide

theorem test_witness_commandRoundTrip : (14#5).toNat ≤ 14 ∧ withId.clsPlus2 = true := by decide

/-- A ring with IN before OUT, at a capacity of 8. -/
theorem test_witness_ringPrimitives :
    ((after (after withFull (.ext .r2h 5)) (.ins .r2h .stg 5)).ring .r2h).inIdx = 4 ∧
    ((after (after withFull (.ext .r2h 5)) (.ins .r2h .stg 5)).ring .r2h).outIdx = 5 ∧
    withFull.params.rbCap = 8 := by decide

/-- INS past each limit, one byte too many for a ring, and one that just fits. -/
theorem test_witness_ins : withFull.params.Legal ∧ 16 < (17#5).toNat ∧ 14 < (15#5).toNat ∧
    withFull.params.rbCap - 1 - rbUsed withFull .r2h < (1#5).toNat ∧
    (7#5).toNat ≤ withFull.params.rbCap - 1 - rbUsed withFull .h2r := by decide

/-- EXT past its limit, and of a framed ring with two leading zeros. -/
theorem test_witness_ext : withFramed.params.Legal ∧ 16 < (17#5).toNat ∧ (16#5).toNat ≤ 16 ∧
    withFramed.framed .h2r = true ∧ ((rbHeld withFramed .h2r).takeWhile (· == 0)).length = 2 := by decide

theorem test_witness_rbq : withFrame.params.Legal ∧
    rbHeld withFrame .h2r = List.replicate 2 0 ++ [3, 0xAA, 0xBB, 0xCC] ∧
    ([3, 0xAA, 0xBB, 0xCC] : List Byte).head? ≠ some 0 := by decide

theorem test_witness_rbclr : ∃ t, exec (.rbclr .r2h) withFull = .next t := ⟨_, rfl⟩

/-- An INS that is accepted, one that is refused and an EXT, on the same ring. -/
theorem test_witness_ringIsQueue : withFull.params.Legal ∧ (∃ t, exec (.ins .r2h .stg 1) withFull = .next t) ∧
    (∃ t, exec (.ins .h2r .stg 7) withFull = .next t) ∧ ∃ t, exec (.ext .r2h 5) withFull = .next t :=
  ⟨by decide, ⟨_, rfl⟩, ⟨_, rfl⟩, _, rfl⟩

theorem test_witness_ringTrace : withFull.params.Legal ∧ withFull.framed .r2h = false ∧
    ∀ i ∈ [Instr.ext .r2h 5, .ins .r2h .stg 5, .ext .r2h 16], i ≠ .rbclr .r2h ∧ ∀ v, i ≠ .csrw 0x02 v := by
  refine ⟨by decide, by decide, by simp⟩

theorem test_witness_insThenExt : withFull.params.Legal ∧ withFull.framed .h2r = false ∧ rbHeld withFull .h2r = [] ∧
    (7#5).toNat ≤ 16 ∧ (7#5).toNat ≤ withFull.params.rbCap - 1 := by decide

end Sys2Proof.Tests
end

section
/-! SUPPORT. Which command may change which state element (10_state.md sections 4 to 6), read off from
what each command's effect is. -/

namespace Sys2Proof.Machine

open Sys2Proof

/-- The rings of a state through its two fields, so that `simp` sees which updates leave both alone. -/
theorem ring_eq_ite (s : State) (r : Ring) : s.ring r = if r = .h2r then s.h2r else s.r2h := by
  cases r <;> rfl

theorem setStg_ring (s : State) (p : Vector Byte 16) (r : Ring) :
    State.ring { s with stg := p } r = s.ring r := by cases r <;> rfl

/-- Replacing a ring changes no other ring. -/
theorem eq_of_setRing_ring_ne {s : State} {r q : Ring} {b : RingBuf}
    (h : (s.setRing r b).ring q ≠ s.ring q) : r = q :=
  Decidable.byContradiction fun hne => h (setRing_ring_ne s b (Ne.symm hne))

/-- A CSRW that is not refused writes the element at its address (10_state.md R26-R37). -/
theorem effect_csrw_cases {a : BitVec 8} {v : BitVec 16} {s u : State} (h : Effect (.csrw a v) s u) :
    (∃ m, (a = 0x00 ∨ a = 0x01) ∧ u = { s with mid := m, tvalid := false }) ∨
    (a = 0x02 ∧ u = cfgWrite s v) ∨
    (a = 0x05 ∧ u = { s with crcCur := v }) ∨
    (a = 0x06 ∧ u = { s with hopIdx := v.setWidth 5 }) ∨
    (a = 0x09 ∧ u = { s with err := s.err &&& ~~~(v.extractLsb' 1 6) }) ∨
    (a = 0x0B ∧ u = { s with rxLen := v.setWidth 5 }) := by
  obtain ⟨c, hc, hw⟩ := h
  obtain rfl := csrAt_eq_some hc
  rcases csrWrite_cases hw with ⟨rfl, rfl⟩ | ⟨rfl, rfl⟩ | ⟨rfl, rfl⟩ | ⟨rfl, rfl⟩ |
    ⟨rfl, -, -, rfl⟩ | ⟨rfl, rfl⟩ | ⟨rfl, -, rfl⟩
  · exact .inl ⟨_, .inl rfl, rfl⟩
  · exact .inl ⟨_, .inr rfl, rfl⟩
  all_goals simp [csrAddress]

/-- The effect of EXT replaces its own ring and STG, nothing else (44_stream_shuttle.md R201). -/
theorem takeBytes_rbDrop_eq (r : Ring) (m n : Nat) (s : State) :
    ∃ b p, takeBytes r m (rbDrop s r n) = State.setRing { s with stg := p } r b := by
  cases r <;> exact ⟨_, _, rfl⟩

/-- Settles O21: an error changes ERR only, and the effect of each command that ends with status OK is
the old state with the elements it names replaced. -/
theorem onlyTheseCommandsWrite : Obligations.OnlyTheseCommandsWrite := by
  unfold Obligations.OnlyTheseCommandsWrite
  intro i s t h
  rcases exec_cases h with ⟨e, rfl⟩ | ⟨u, d, rfl, hE⟩
  · simp
  cases i with
  | nop | csrr | bufr | lookup | pnrd | classify | rbq =>
    cases hE
    simp
  | derive | flip =>
    cases hE
    simp [ring_eq_ite]
  | csrw a v =>
    obtain ⟨m, rfl | rfl, rfl⟩ | ⟨rfl, rfl⟩ | ⟨rfl, rfl⟩ | ⟨rfl, rfl⟩ | ⟨rfl, rfl⟩ | ⟨rfl, rfl⟩ :=
      effect_csrw_cases hE <;> simp [cfgWrite, ring_eq_ite]
  | bufw win idx b =>
    obtain ⟨-, -, rfl⟩ := hE
    cases win <;> simp [setWindowByte, ring_eq_ite]
  | gentbl a b =>
    obtain ⟨-, -, rfl⟩ | ⟨-, _, _, -, rfl⟩ := hE <;> simp [ring_eq_ite]
  | hop =>
    obtain ⟨-, rfl⟩ := hE
    simp [ring_eq_ite]
  | bbind | bcmd =>
    obtain ⟨p, rfl⟩ := hE
    simp [ring_eq_ite]
  | vbind c m =>
    obtain ⟨hcap, rfl⟩ | rfl := hE
    · obtain ⟨-, rfl⟩ := (Bool.and_eq_true ..).mp hcap
      simp [captureBind, ring_eq_ite]
    · simp
  | ins rb src n =>
    obtain ⟨-, -, rfl⟩ | rfl := hE
    · simpa [rbPush] using fun q => eq_of_setRing_ring_ne (q := q)
    · simp
  | ext rb m =>
    obtain ⟨-, rfl⟩ := hE
    obtain ⟨b, p, hu⟩ := takeBytes_rbDrop_eq rb m.toNat (zerosDiscarded s rb) s
    have hring (q : Ring) := eq_of_setRing_ring_ne (s := { s with stg := p }) (r := rb) (q := q) (b := b)
    simpa [hu, setStg_ring] using hring
  | rbclr rb =>
    cases hE
    simpa using fun q => eq_of_setRing_ring_ne (q := q)

end Sys2Proof.Machine
end

section
/-! SUPPORT. What one step keeps and what reset leaves: the step as the decoded command, the values of
10_state.md R43, and the invariants of R41 (a), (b), (d), (e) and of R32. -/

namespace Sys2Proof.Machine

open Sys2Proof

/-! ### The step -/

/-- Settles O8: the command of a word in the port is the step's branch for a decoded word. -/
theorem stepRunsDecodedCommand : Obligations.StepRunsDecodedCommand := by
  unfold Obligations.StepRunsDecodedCommand
  intro s w rest i hp hd
  rw [step_of_port hp, hd]

/-- A property holds after every step if taking a word from the port, an error, a response and the
effect of every command keep it: the induction step of an invariant, said once. -/
theorem step_keeps {P : State → Prop} {s t : State}
    (hport : ∀ s ws, P s → P { s with port := ws })
    (herror : ∀ s e, P s → P (afterError s e))
    (hrespond : ∀ (s : State) d, P s → P (s.respond d))
    (heffect : ∀ i s u, P s → Effect i s u → P u)
    (hs : P s) (h : step s = .next t) : P t := by
  cases hp : s.port with
  | nil =>
    rw [step, fetch_nil hp] at h
    cases h
    exact hs
  | cons w rest =>
    rcases step_cases hp h with ⟨e, rfl⟩ | ⟨i, u, d, -, rfl, hE⟩
    · exact herror _ _ (hport _ _ hs)
    · exact hrespond _ _ (heffect _ _ _ (hport _ _ hs) hE)

/-! ### Reset -/

/-- The reset values of 10_state.md R43, beside whatever the clients hold (log 11). -/
def afterReset (p : Params) (ws : List Word) (rs : List Response) : State :=
  { State.resetWith p with port := ws, responses := rs }

/-- Power-up and platform reset leave such a state (70_reset_and_hazards.md R260). -/
theorem reset_eq_afterReset {t : State}
    (h : (∃ p, t = State.resetWith p) ∨ ∃ s, t = portEvent .reset s) :
    ∃ p ws rs, t = afterReset p ws rs := by
  obtain ⟨p, rfl⟩ | ⟨s, rfl⟩ := h
  · exact ⟨p, [], [], rfl⟩
  · exact ⟨s.params, s.port, s.responses, rfl⟩

/-- No CSR read depends on the parameters or on what the clients hold. -/
theorem csrRead_afterReset (p : Params) (ws : List Word) (rs : List Response) (c : Csr) :
    csrRead (afterReset p ws rs) c = csrRead State.reset c := by
  cases c <;> rfl

/-- CSRR of a CSR's address returns its read value (40_register_access.md R111). -/
theorem endsOk_csrr {a : BitVec 8} {c : Csr} (s : State) (h : csrAt a = some c) :
    EndsOk (.csrr a) s s ((csrRead s c).setWidth 32) := by
  simp only [EndsOk, exec, execCsrr, h]
  rfl

/-- CSRR after reset returns what the CSR reads in the reference reset state. -/
theorem endsOk_csrr_afterReset {p : Params} {ws : List Word} {rs : List Response} {a : BitVec 8}
    {d : Word} (c : Csr) (hc : csrAt a = some c) (hd : (csrRead State.reset c).setWidth 32 = d) :
    EndsOk (.csrr a) (afterReset p ws rs) (afterReset p ws rs) d := by
  rw [← hd, ← csrRead_afterReset p ws rs]
  exact endsOk_csrr _ hc

/-- Settles O10: every element has its reset value, and the derived reads are computed from them. -/
theorem resetLeavesStatedValues : Obligations.ResetLeavesStatedValues := by
  unfold Obligations.ResetLeavesStatedValues
  intro t ht
  obtain ⟨p, ws, rs, rfl⟩ := reset_eq_afterReset ht
  have hbytes : ∀ b ∈ (Vector.replicate 16 0).toList ++ (Vector.replicate 16 0).toList
      ++ (Vector.replicate 16 0).toList ++ (Vector.replicate 23 0).toList, b = (0 : Byte) := by
    decide
  refine ⟨rfl, rfl, rfl, rfl, rfl, rfl, rfl, rfl, hbytes, fun r => ?_, ?_⟩
  · cases r <;> exact ⟨rfl, rfl⟩
  · exact ⟨endsOk_csrr_afterReset .cfg rfl (by decide),
      endsOk_csrr_afterReset .code rfl (by decide),
      endsOk_csrr_afterReset .crcBase rfl (by decide),
      endsOk_csrr_afterReset .status rfl (by decide),
      endsOk_csrr_afterReset .err rfl (by decide)⟩

/-! ### Which commands touch the table -/

/-- The elements a channel table rests on (10_state.md R32), HOP_IDX and RX_LEN are the same. -/
structure SameTable (s u : State) : Prop where
  params : u.params = s.params
  mid    : u.mid = s.mid
  proto  : u.proto = s.proto
  tvalid : u.tvalid = s.tvalid
  tblLen : u.tblLen = s.tblLen
  cht    : u.cht = s.cht
  hopIdx : u.hopIdx = s.hopIdx
  rxLen  : u.rxLen = s.rxLen

theorem SameTable.refl (s : State) : SameTable s s := ⟨rfl, rfl, rfl, rfl, rfl, rfl, rfl, rfl⟩

/-- Only CSRW, DERIVE, GENTBL, HOP and VBIND touch MID, PROTO, the table, HOP_IDX or RX_LEN. -/
theorem effect_table_cases {i : Instr} {s u : State} (h : Effect i s u) :
    SameTable s u ∨ (∃ a v, i = .csrw a v) ∨ i = .derive ∨ (∃ a b, i = .gentbl a b) ∨ i = .hop ∨
      ∃ c m, i = .vbind c m := by
  cases i with
  | csrw | derive | gentbl | hop | vbind => simp
  | nop | csrr | bufr | lookup | pnrd | classify | rbq =>
    cases h
    exact .inl (SameTable.refl s)
  | flip =>
    cases h
    exact .inl (by constructor <;> rfl)
  | bufw win idx b =>
    obtain ⟨-, -, rfl⟩ := h
    exact .inl (by cases win <;> constructor <;> rfl)
  | bbind | bcmd =>
    obtain ⟨p, rfl⟩ := h
    exact .inl (by constructor <;> rfl)
  | ins rb src n =>
    obtain ⟨-, -, rfl⟩ | rfl := h
    · exact .inl (by constructor <;> simp [rbPush])
    · exact .inl (SameTable.refl _)
  | ext rb m =>
    obtain ⟨-, rfl⟩ := h
    exact .inl (by constructor <;> simp [takeBytes, rbDrop])
  | rbclr rb =>
    cases h
    exact .inl (by constructor <;> simp)

/-- A table is valid after a CFG write only if it was, and PROTO is as it was (10_state.md R27). -/
theorem cfgWrite_tvalid_iff (s : State) (v : BitVec 16) :
    (cfgWrite s v).tvalid = true ↔ protoOf v = s.proto ∧ s.tvalid = true := by
  simp [cfgWrite]

/-! ### The field invariants -/

/-- ERR[0] reads 0 in every state (10_state.md R33, R41 e). -/
theorem csrRead_err_bit_zero (s : State) : (csrRead s .err).getLsbD 0 = false := by
  simp only [csrRead, BitVec.getLsbD_append]
  rfl

/-- HOP stays within a table that is not empty (41_channel_sequencer.md R137). -/
theorem nextHopIdx_lt {idx len : BitVec 5} (h : len ≠ 0) :
    (nextHopIdx idx len).toNat < len.toNat := by
  have hpos : 0 < len.toNat := Nat.pos_of_ne_zero fun h0 => h (BitVec.eq_of_toNat_eq h0)
  rw [nextHopIdx, if_neg h, BitVec.toNat_ofNat]
  exact (Nat.mod_le _ _).trans_lt (Nat.mod_lt _ hpos)

/-- Five bits of a half word are at most its value. -/
theorem toNat_setWidth_five_le (v : BitVec 16) : (v.setWidth 5).toNat ≤ v.toNat := by
  rw [BitVec.toNat_setWidth]
  exact Nat.mod_le _ _

theorem SameTable.fieldInv {s u : State} (h : SameTable s u) (hs : FieldInv s) : FieldInv u := by
  obtain ⟨hlen, hidx, hrx, -⟩ := hs
  refine ⟨h.tblLen ▸ hlen, ?_, h.rxLen ▸ hrx, csrRead_err_bit_zero u⟩
  rwa [h.tvalid, h.tblLen, h.hopIdx]

/-- A CSR write that is not refused keeps the field invariants (10_state.md R26-R36). -/
theorem csrWrite_keeps_fieldInv {s u : State} {c : Csr} {v : BitVec 16} (hs : FieldInv s)
    (h : csrWrite s c v = .ok u) : FieldInv u := by
  obtain ⟨hlen, hidx, hrx, -⟩ := hs
  rcases csrWrite_cases h with ⟨-, rfl⟩ | ⟨-, rfl⟩ | ⟨-, rfl⟩ | ⟨-, rfl⟩ | ⟨-, hv, hlt, rfl⟩ |
    ⟨-, rfl⟩ | ⟨-, hle, rfl⟩
  · exact ⟨hlen, nofun, hrx, csrRead_err_bit_zero _⟩
  · exact ⟨hlen, nofun, hrx, csrRead_err_bit_zero _⟩
  · exact ⟨hlen, fun ht => hidx ((cfgWrite_tvalid_iff s v).mp ht).2, hrx, csrRead_err_bit_zero _⟩
  · exact ⟨hlen, hidx, hrx, csrRead_err_bit_zero _⟩
  · have hlt' := (toNat_setWidth_five_le v).trans_lt hlt
    exact ⟨hlen, fun _ => ⟨(hidx hv).1, hlt'⟩, hrx, csrRead_err_bit_zero _⟩
  · exact ⟨hlen, hidx, hrx, csrRead_err_bit_zero _⟩
  · exact ⟨hlen, hidx, (toNat_setWidth_five_le v).trans hle, csrRead_err_bit_zero _⟩

/-- The effect of every command keeps the field invariants (10_state.md R41 a, b, d, e). -/
theorem effect_keeps_fieldInv (i : Instr) (s u : State) (hs : FieldInv s) (h : Effect i s u) :
    FieldInv u := by
  rcases effect_table_cases h with hsame | ⟨a, v, rfl⟩ | rfl | ⟨a, b, rfl⟩ | rfl | ⟨c, m, rfl⟩
  · exact hsame.fieldInv hs
  · obtain ⟨c, -, hw⟩ := h
    exact csrWrite_keeps_fieldInv hs hw
  all_goals obtain ⟨hlen, hidx, hrx, herr⟩ := hs
  · cases h
    refine ⟨hlen, fun hv => ?_, hrx, csrRead_err_bit_zero _⟩
    obtain ⟨hl, hlt⟩ := hidx hv
    exact ⟨hl, Nat.zero_lt_of_lt hlt⟩
  · obtain ⟨-, -, rfl⟩ | ⟨-, _, _, -, rfl⟩ := h <;>
      exact ⟨by simp, by simp, hrx, csrRead_err_bit_zero _⟩
  · obtain ⟨hv, rfl⟩ := h
    obtain ⟨hl, -⟩ := hidx hv
    have hne : s.tblLen ≠ 0 := by rcases hl with hl | hl <;> simp [hl]
    exact ⟨hlen, fun _ => ⟨hl, nextHopIdx_lt hne⟩, hrx, csrRead_err_bit_zero _⟩
  · obtain ⟨-, rfl⟩ | rfl := h
    · exact ⟨hlen, nofun, hrx, csrRead_err_bit_zero _⟩
    · exact ⟨hlen, hidx, hrx, herr⟩

/-- Settles O15: neither the port, an error, a response nor the effect of a command breaks the field
invariants. -/
theorem stepKeepsFieldInv : Obligations.StepKeepsFieldInv := by
  unfold Obligations.StepKeepsFieldInv
  intro s t hs h
  refine step_keeps (fun _ _ hs => hs) (fun s e hs => ?_) (fun _ _ hs => hs)
    effect_keeps_fieldInv hs h
  obtain ⟨hlen, hidx, hrx, -⟩ := hs
  exact ⟨hlen, hidx, hrx, csrRead_err_bit_zero _⟩

/-! ### The table invariant -/

theorem SameTable.tableInv {s u : State} (h : SameTable s u) (hs : TableInv s) : TableInv u := by
  unfold TableInv
  rwa [h.tvalid, h.proto, h.tblLen, h.cht, h.params, h.mid]

/-- A table GENTBL stores in CHT reads back as it was generated, its entries being bytes. -/
theorem map_toNat_storedTable {l : List Nat} (hlen : l.length = 23) (hbyte : ∀ c ∈ l, c < 256) :
    (Vector.ofFn fun i : Fin 23 => BitVec.ofNat 8 ((l[i.val]?).getD 0)).toList.map BitVec.toNat
      = l := by
  refine List.ext_getElem (by simp [hlen]) fun i _ hi => ?_
  have hb := hbyte l[i] (List.getElem_mem hi)
  simp [List.getElem?_eq_getElem hi, Nat.mod_eq_of_lt hb]

/-- The entries of dsmx_table(MID) are 23 and fit a byte (41_channel_sequencer.md R138). -/
theorem dsmxTable_bytes {p : Params} {mid : Vector Byte 4} {l : List Nat} {it : Nat}
    (h : dsmxTable p mid = some (l, it)) : l.length = 23 ∧ ∀ c ∈ l, c < 256 := by
  obtain ⟨l', it', h', hgood, hlen, -⟩ := dsmxTable_spec p mid
  obtain ⟨rfl, -⟩ := Prod.mk.inj (Option.some.inj (h.symm.trans h'))
  refine ⟨hlen, fun c hc => ?_⟩
  have hc' := hgood.bounds c hc
  have hmod := chMod_value_bounds p.chMod
  omega

/-- GENTBL leaves the table of the current MID and PROTO (41_channel_sequencer.md R130). -/
theorem gentbl_tableInv {a b : Byte} {s u : State} (h : Effect (.gentbl a b) s u) : TableInv u := by
  obtain ⟨hp, hpair, rfl⟩ | ⟨hp, table, it, htable, rfl⟩ := h
  · simpa [TableInv, hp] using hpair
  · obtain ⟨hlen, hbyte⟩ := dsmxTable_bytes htable
    simp only [TableInv, hp, map_toNat_storedTable hlen hbyte]
    exact fun _ => ⟨trivial, it, htable⟩

/-- A CSR write that is not refused keeps the table invariant: a write of the id drops the table, and
so does one of CFG that changes PROTO (10_state.md R25, R27, R32). -/
theorem csrWrite_keeps_tableInv {s u : State} {c : Csr} {v : BitVec 16} (hs : TableInv s)
    (h : csrWrite s c v = .ok u) : TableInv u := by
  rcases csrWrite_cases h with ⟨-, rfl⟩ | ⟨-, rfl⟩ | ⟨-, rfl⟩ | ⟨-, rfl⟩ | ⟨-, -, -, rfl⟩ |
    ⟨-, rfl⟩ | ⟨-, -, rfl⟩
  · exact nofun
  · exact nofun
  · intro ht
    obtain ⟨hproto, hv⟩ := (cfgWrite_tvalid_iff s v).mp ht
    simpa only [cfgWrite, hproto] using hs hv
  all_goals exact hs

/-- The effect of every command keeps the table invariant (10_state.md R32). -/
theorem effect_keeps_tableInv (i : Instr) (s u : State) (hs : TableInv s) (h : Effect i s u) :
    TableInv u := by
  rcases effect_table_cases h with hsame | ⟨a, v, rfl⟩ | rfl | ⟨a, b, rfl⟩ | rfl | ⟨c, m, rfl⟩
  · exact hsame.tableInv hs
  · obtain ⟨c, -, hw⟩ := h
    exact csrWrite_keeps_tableInv hs hw
  · cases h
    exact hs
  · exact gentbl_tableInv h
  · obtain ⟨-, rfl⟩ := h
    exact hs
  · obtain ⟨-, rfl⟩ | rfl := h
    · exact nofun
    · exact hs

/-- Settles O17: only GENTBL makes a table valid, and whatever changes MID or PROTO drops it. -/
theorem stepKeepsTableInv : Obligations.StepKeepsTableInv := by
  unfold Obligations.StepKeepsTableInv
  exact fun _ _ => step_keeps (fun _ _ hs => hs) (fun _ _ hs => hs) (fun _ _ hs => hs)
    effect_keeps_tableInv

end Sys2Proof.Machine
end

section
/-! SUPPORT. The memory rules of 20_memory.md: the ring primitives on legal indices (R66-R68), the
commands that only read (R72), and the order in which the port takes each client's commands (R74). -/

namespace Sys2Proof.Machine

open Sys2Proof

/-! ### The ring primitives on legal indices -/

/-- RbUsed without a remainder: IN - OUT, plus RB_CAP where IN is below OUT (20_memory.md R66). -/
theorem rbUsed_of_index_lt {s : State} {r : Ring} (hin : (s.ring r).inIdx < s.params.rbCap)
    (hout : (s.ring r).outIdx < s.params.rbCap) :
    rbUsed s r = if (s.ring r).outIdx ≤ (s.ring r).inIdx
      then (s.ring r).inIdx - (s.ring r).outIdx
      else s.params.rbCap + (s.ring r).inIdx - (s.ring r).outIdx := by
  split_ifs with h
  · exact rbUsed_eq_of (by omega) (by rw [Nat.add_sub_cancel' h])
  · refine rbUsed_eq_of (by omega) ?_
    rw [Nat.add_sub_cancel' (by omega), Nat.add_mod_left]

/-- Settles O50: the number held is the one number below RB_CAP that takes OUT to IN, and an address
of a held byte is a sum of two numbers below RB_CAP. -/
theorem ringPrimitives : Obligations.RingPrimitives := by
  unfold Obligations.RingPrimitives
  intro s r hin hout
  have hlt : rbUsed s r < s.params.rbCap := rbUsed_lt (by omega)
  refine ⟨rbUsed_of_index_lt hin hout, ?_, fun i hi => ?_⟩
  · unfold rbFree
    omega
  · rw [rbPeek, Nat.add_mod_eq_ite, Nat.mod_eq_of_lt hout, Nat.mod_eq_of_lt (hi.trans hlt)]
    simp only [← not_lt, ite_not]

/-! ### The reading commands -/

/-- The commands 20_memory.md R72 lists as reads. -/
def Reading (i : Instr) : Prop :=
  (∃ c, i = .csrr c) ∨ (∃ w k, i = .bufr w k) ∨ (∃ r, i = .rbq r) ∨ (∃ c ch, i = .lookup c ch) ∨
    (∃ row c k, i = .pnrd row c k) ∨ i = .classify ∨ i = .nop ∨ ∃ m, i = .vbind false m

/-- A reading command that ends with status OK has no effect: for all but VBIND that is its `Effect`,
and a VBIND with C = 0 does not capture (43_packet_codec.md R174). -/
theorem effect_reading {i : Instr} {s u : State} (hi : Reading i) (h : Effect i s u) : u = s := by
  rcases hi with ⟨c, rfl⟩ | ⟨w, k, rfl⟩ | ⟨r, rfl⟩ | ⟨c, ch, rfl⟩ | ⟨row, c, k, rfl⟩ | rfl | rfl |
    ⟨m, rfl⟩
  iterate 7 · exact h
  · exact h.resolve_left (by simp)

/-- Settles O23: a command raises an error or answers after its effect, and a read has none. -/
theorem readsHaveNoSideEffect : Obligations.ReadsHaveNoSideEffect := by
  unfold Obligations.ReadsHaveNoSideEffect
  intro i s t hi h
  rcases exec_cases h with ⟨e, rfl⟩ | ⟨u, d, rfl, hE⟩
  · exact .inr ⟨e, raise_eq_afterError s e⟩
  · obtain rfl := effect_reading hi hE
    exact .inl ⟨d, rfl⟩

/-! ### Arbitration -/

/-- The commands the port takes from client `k`, in the order it takes them. -/
def takenFrom (k : Nat) (taken : List (Nat × Word)) : List Word :=
  (taken.filter fun x => x.1 == k).map Prod.snd

theorem takenFrom_cons_same (k : Nat) (w : Word) (taken : List (Nat × Word)) :
    takenFrom k ((k, w) :: taken) = w :: takenFrom k taken := by
  simp [takenFrom]

theorem takenFrom_cons_ne {c k : Nat} (h : c ≠ k) (w : Word) (taken : List (Nat × Word)) :
    takenFrom k ((c, w) :: taken) = takenFrom k taken := by
  simp [takenFrom, h]

/-- One turn of a schedule: the client named is passed over, or the first command of its queue is
taken (20_memory.md R74). -/
theorem arbitrate_cons_cases (c : Nat) (schedule : List Nat) (queues : List (List Word)) :
    arbitrate (c :: schedule) queues = arbitrate schedule queues ∨
    ∃ w rest, queues[c]? = some (w :: rest) ∧
      arbitrate (c :: schedule) queues = (c, w) :: arbitrate schedule (queues.set c rest) := by
  rw [arbitrate]
  split
  · exact .inr ⟨_, _, ‹_›, rfl⟩
  · exact .inl rfl

/-- What is taken from a client is the beginning of its queue. -/
theorem takenFrom_arbitrate_prefix (schedule : List Nat) (k : Nat) :
    ∀ queues : List (List Word),
      takenFrom k (arbitrate schedule queues) <+: (queues[k]?).getD [] := by
  induction schedule with
  | nil => exact fun _ => List.nil_prefix
  | cons c schedule ih =>
    intro queues
    rcases arbitrate_cons_cases c schedule queues with h | ⟨w, rest, hq, h⟩ <;> rw [h]
    · exact ih queues
    · have hrest := ih (queues.set c rest)
      by_cases hck : c = k
      · subst hck
        have hc : c < queues.length := (List.getElem?_eq_some_iff.mp hq).1
        rw [List.getElem?_set_self hc] at hrest
        rw [takenFrom_cons_same, hq]
        exact (List.prefix_cons_inj w).mpr hrest
      · rwa [takenFrom_cons_ne hck, ← List.getElem?_set_ne hck]

/-- Settles O25, by induction on the schedule, for all queues at once. -/
theorem arbitrationKeepsClientOrder : Obligations.ArbitrationKeepsClientOrder :=
  fun schedule queues k => takenFrom_arbitrate_prefix schedule k queues

end Sys2Proof.Machine
end

section
/-! SUPPORT. The encoding rules of 30_encoding.md: the rows of the opcode table as the opcodes with
their formats (R84-R86), and decoding and encoding as inverses of each other (R82, R93). -/

namespace Sys2Proof

/-! ### The rows of the opcode table -/

/-- The byte of each defined opcode (30_encoding.md R84). -/
def Opcode.byte : Opcode → BitVec 8
  | .nop => 0x00
  | .csrr => 0x01
  | .csrw => 0x02
  | .bufr => 0x03
  | .bufw => 0x04
  | .derive => 0x10
  | .gentbl => 0x11
  | .hop => 0x12
  | .flip => 0x13
  | .lookup => 0x14
  | .pnrd => 0x15
  | .bbind => 0x20
  | .vbind => 0x21
  | .bcmd => 0x22
  | .classify => 0x23
  | .ins => 0x30
  | .ext => 0x31
  | .rbq => 0x32
  | .rbclr => 0x33

/-- The opcode map reads a byte as an opcode exactly when it is that opcode's byte. -/
theorem opcodeOf_eq_some_iff {b : BitVec 8} {op : Opcode} : opcodeOf b = some op ↔ b = op.byte := by
  constructor
  · intro h
    unfold opcodeOf at h
    split at h <;> cases h <;> exact BitVec.eq_of_toNat_eq ‹_›
  · rintro rfl
    cases op <;> rfl

/-- No two opcodes share a byte. -/
theorem Opcode.byte_injective : Function.Injective Opcode.byte := fun _ _ h =>
  Option.some.inj ((opcodeOf_eq_some_iff.mpr rfl).symm.trans (opcodeOf_eq_some_iff.mpr h))

/-- The defined opcodes, in the order of their bytes. -/
def allOpcodes : List Opcode :=
  [.nop, .csrr, .csrw, .bufr, .bufw, .derive, .gentbl, .hop, .flip, .lookup, .pnrd, .bbind, .vbind,
    .bcmd, .classify, .ins, .ext, .rbq, .rbclr]

theorem mem_allOpcodes (op : Opcode) : op ∈ allOpcodes := by cases op <;> decide

/-- The opcode of a command. -/
def Instr.opcode : Instr → Opcode
  | .nop => .nop
  | .csrr _ => .csrr
  | .csrw _ _ => .csrw
  | .bufr _ _ => .bufr
  | .bufw _ _ _ => .bufw
  | .derive => .derive
  | .gentbl _ _ => .gentbl
  | .hop => .hop
  | .flip => .flip
  | .lookup _ _ => .lookup
  | .pnrd _ _ _ => .pnrd
  | .bbind _ _ => .bbind
  | .vbind _ _ => .vbind
  | .bcmd _ _ => .bcmd
  | .classify => .classify
  | .ins _ _ _ => .ins
  | .ext _ _ => .ext
  | .rbq _ => .rbq
  | .rbclr _ => .rbclr

/-- The operands read from a word belong to a command of the opcode they are read for. -/
theorem opcode_operandsOf (op : Opcode) (w : Word) : (operandsOf op w).opcode = op := by
  cases op <;> rfl

/-- The mnemonic of an opcode: that of the command it reads, whatever the operands. -/
def Opcode.mnemonic (op : Opcode) : String := (operandsOf op 0).mnemonic

theorem mnemonic_opcode (i : Instr) : i.opcode.mnemonic = i.mnemonic := by cases i <;> rfl

/-- The row an opcode and its format give: the mask covers the opcode and the reserved bits of the
format (30_encoding.md, preamble, R84, R86). -/
def Opcode.row (op : Opcode) : TableRow :=
  ⟨op.mnemonic, BitVec.allOnes 8 ++ ~~~(legalMask (formatOf op)), op.byte ++ 0#24⟩

/-- spec/opcode_table.json is the opcode map with the legal operand-bit masks. -/
theorem opcodeTable_eq : opcodeTable = allOpcodes.map Opcode.row := by decide

theorem exists_mem_opcodeTable {P : TableRow → Prop} :
    (∃ r ∈ opcodeTable, P r) ↔ ∃ op : Opcode, P op.row := by
  simp [opcodeTable_eq, mem_allOpcodes]

/-- A word is its opcode byte and its operand bits (30_encoding.md R81). -/
theorem opcode_append_operandBits (w : Word) : field w 24 8 ++ field w 0 24 = w :=
  (BitVec.extractLsb'_append_extractLsb'_eq_extractLsb' rfl).trans BitVec.extractLsb'_eq_self

theorem append_inj_iff {n m : Nat} {a c : BitVec n} {b d : BitVec m} :
    a ++ b = c ++ d ↔ a = c ∧ b = d := by
  refine ⟨fun h => ⟨?_, ?_⟩, fun ⟨h1, h2⟩ => h1 ▸ h2 ▸ rfl⟩
  · simpa [BitVec.extractLsb'_append_eq_left] using congrArg (BitVec.extractLsb' m n) h
  · simpa [BitVec.extractLsb'_append_eq_right] using congrArg (BitVec.extractLsb' 0 m) h

/-- The mask of a row keeps the opcode and the reserved bits of a word. -/
theorem and_row_mask (op : Opcode) (w : Word) :
    w &&& op.row.mask = field w 24 8 ++ (field w 0 24 &&& ~~~(legalMask (formatOf op))) :=
  calc w &&& op.row.mask
    _ = (field w 24 8 ++ field w 0 24) &&& op.row.mask := by rw [opcode_append_operandBits]
    _ = (field w 24 8 &&& BitVec.allOnes 8) ++ (field w 0 24 &&& ~~~(legalMask (formatOf op))) :=
      BitVec.and_append
    _ = _ := by rw [BitVec.and_allOnes]

/-- A word matches an opcode's row when it has the opcode's byte and no reserved bit set. -/
theorem row_holds_iff {op : Opcode} {w : Word} :
    op.row.holds w = true ↔
      field w 24 8 = op.byte ∧ field w 0 24 &&& ~~~(legalMask (formatOf op)) = 0 := by
  rw [TableRow.holds, beq_iff_eq, and_row_mask]
  exact append_inj_iff

/-- Decoding succeeds exactly on the words of a row, and reads that row's fields
(30_encoding.md R93). -/
theorem decode_eq_ok_iff {w : Word} {i : Instr} :
    decode w = .ok i ↔ ∃ op : Opcode, op.row.holds w = true ∧ operandsOf op w = i := by
  constructor
  · intro h
    unfold decode at h
    split at h
    · cases h
    · rename_i op hop
      split_ifs at h with hres
      cases h
      exact ⟨op, row_holds_iff.mpr ⟨opcodeOf_eq_some_iff.mp hop, not_not.mp hres⟩, rfl⟩
  · rintro ⟨op, h, rfl⟩
    obtain ⟨hop, hres⟩ := row_holds_iff.mp h
    exact decode_of_opcode (opcodeOf_eq_some_iff.mpr hop) hres

/-- A word belongs to one opcode's row at most. -/
theorem opcode_eq_of_holds {op op' : Opcode} {w : Word} (h : op.row.holds w = true)
    (h' : op'.row.holds w = true) : op = op' :=
  Opcode.byte_injective ((row_holds_iff.mp h).1.symm.trans (row_holds_iff.mp h').1)

theorem extract_row_pattern (op : Opcode) : op.row.pattern.extractLsb' 24 8 = op.byte :=
  BitVec.extractLsb'_append_eq_left

theorem opcodeDefined_iff {w : Word} :
    w.opcodeDefined = true ↔ ∃ op : Opcode, field w 24 8 = op.byte := by
  simp [Word.opcodeDefined, opcodeTable_eq, mem_allOpcodes, extract_row_pattern, field]

theorem reservedZero_iff {w : Word} :
    w.reservedZero = true ↔ ∀ op : Opcode, field w 24 8 = op.byte → op.row.holds w = true := by
  simp [Word.reservedZero, opcodeTable_eq, mem_allOpcodes, extract_row_pattern, field,
    imp_iff_not_or]

/-- A word is well formed when it belongs to a row: at most one row has its opcode. -/
theorem wellFormed_iff {w : Word} : w.wellFormed = true ↔ ∃ op : Opcode, op.row.holds w = true := by
  rw [Word.wellFormed, Bool.and_eq_true, opcodeDefined_iff, reservedZero_iff]
  constructor
  · rintro ⟨⟨op, hop⟩, hres⟩
    exact ⟨op, hres op hop⟩
  · rintro ⟨op, h⟩
    have hop := (row_holds_iff.mp h).1
    exact ⟨⟨op, hop⟩, fun op' hop' => Opcode.byte_injective (hop.symm.trans hop') ▸ h⟩

/-! ### What the decoder accepts -/

/-- Settles O3: the rows are the opcodes' rows, and a word is of one opcode at most. -/
theorem decodeFollowsOpcodeTable : Obligations.DecodeFollowsOpcodeTable := by
  unfold Obligations.DecodeFollowsOpcodeTable
  simp only [exists_mem_opcodeTable]
  refine ⟨fun w => ?_, fun w i h => ?_, fun w => wellFormed_iff, ?_⟩
  · constructor
    · rintro ⟨i, h⟩
      obtain ⟨op, hop, -⟩ := decode_eq_ok_iff.mp h
      exact ⟨op, hop⟩
    · rintro ⟨op, hop⟩
      exact ⟨_, decode_eq_ok_iff.mpr ⟨op, hop, rfl⟩⟩
  · obtain ⟨op, hop, rfl⟩ := decode_eq_ok_iff.mp h
    refine ⟨op, ?_, hop⟩
    rw [← mnemonic_opcode, opcode_operandsOf]
    rfl
  · rw [opcodeTable_eq, List.pairwise_map]
    have hnodup : allOpcodes.Nodup := by decide
    exact hnodup.imp fun hne w ⟨h, h'⟩ => hne (opcode_eq_of_holds h h')

/-! ### Decoding the word of a command -/

/-- Distinct opcodes have distinct mnemonics. -/
theorem Opcode.mnemonic_injective : Function.Injective Opcode.mnemonic := by
  have h : ∀ op ∈ allOpcodes, ∀ op' ∈ allOpcodes, op.mnemonic = op'.mnemonic → op = op' := by decide
  exact fun op op' => h op (mem_allOpcodes op) op' (mem_allOpcodes op')

theorem encodesToItsRow (i : Instr) : Laws.EncodesToItsRow.Statement i := by
  cases i with
  | nop => exact Laws.EncodesToItsRow.nop
  | csrr csr => exact Laws.EncodesToItsRow.csrr csr
  | csrw csr value => exact Laws.EncodesToItsRow.csrw csr value
  | bufr win idx => exact Laws.EncodesToItsRow.bufr win idx
  | bufw win idx byte => exact Laws.EncodesToItsRow.bufw win idx byte
  | derive => exact Laws.EncodesToItsRow.derive
  | gentbl chA chB => exact Laws.EncodesToItsRow.gentbl chA chB
  | hop => exact Laws.EncodesToItsRow.hop
  | flip => exact Laws.EncodesToItsRow.flip
  | lookup src ch => exact Laws.EncodesToItsRow.lookup src ch
  | pnrd row code k => exact Laws.EncodesToItsRow.pnrd row code k
  | bbind nch proto => exact Laws.EncodesToItsRow.bbind nch proto
  | vbind capture matchId => exact Laws.EncodesToItsRow.vbind capture matchId
  | bcmd loss len => exact Laws.EncodesToItsRow.bcmd loss len
  | classify => exact Laws.EncodesToItsRow.classify
  | ins rb src len => exact Laws.EncodesToItsRow.ins rb src len
  | ext rb max => exact Laws.EncodesToItsRow.ext rb max
  | rbq rb => exact Laws.EncodesToItsRow.rbq rb
  | rbclr rb => exact Laws.EncodesToItsRow.rbclr rb

/-- The word of a command belongs to the row of the command's opcode. -/
theorem row_holds_encode (i : Instr) : i.opcode.row.holds (encode i) = true := by
  obtain ⟨op, hm, h⟩ := exists_mem_opcodeTable.mp (encodesToItsRow i)
  rwa [Opcode.mnemonic_injective (hm.trans (mnemonic_opcode i).symm)] at h

/-! The small fields: each value of a one- or two-bit field names one constructor
(30_encoding.md R82). -/

@[simp] theorem windowOf_windowBits (x : Window) : windowOf (windowBits x) = x := by cases x <;> rfl
@[simp] theorem ringOf_ringBit (x : Ring) : ringOf (ringBit x) = x := by cases x <;> rfl
@[simp] theorem insSourceOf_insSourceBit (x : InsSource) : insSourceOf (insSourceBit x) = x := by
  cases x <;> rfl
@[simp] theorem codeSelectOf_codeSelectBit (x : CodeSelect) :
    codeSelectOf (codeSelectBit x) = x := by cases x <;> rfl
@[simp] theorem channelSourceOf_channelSourceBit (x : ChannelSource) :
    channelSourceOf (channelSourceBit x) = x := by cases x <;> rfl
@[simp] theorem flagOf_ofBool (x : Bool) : flagOf (BitVec.ofBool x) = x := by cases x <;> rfl

@[simp] theorem windowBits_windowOf : ∀ b : BitVec 2, windowBits (windowOf b) = b := by decide
@[simp] theorem ringBit_ringOf : ∀ b : BitVec 1, ringBit (ringOf b) = b := by decide
@[simp] theorem insSourceBit_insSourceOf : ∀ b : BitVec 1, insSourceBit (insSourceOf b) = b := by
  decide
@[simp] theorem codeSelectBit_codeSelectOf :
    ∀ b : BitVec 1, codeSelectBit (codeSelectOf b) = b := by decide
@[simp] theorem channelSourceBit_channelSourceOf :
    ∀ b : BitVec 1, channelSourceBit (channelSourceOf b) = b := by decide
@[simp] theorem ofBool_flagOf : ∀ b : BitVec 1, BitVec.ofBool (flagOf b) = b := by decide

/-- Each operand stands in its own field of a command's word (30_encoding.md R82). -/
theorem operandsOf_encode (i : Instr) : operandsOf i.opcode (encode i) = i := by
  generalize hw : encode i = w
  cases i with
  | nop | derive | hop | flip | classify => rfl
  | csrr csr =>
    have hn := hw ▸ toNat_encode_csrr csr
    have hcsr : field w 16 8 = csr := field_eq_of_toNat (by omega)
    simp [Instr.opcode, operandsOf, hcsr]
  | csrw csr value =>
    have hn := hw ▸ toNat_encode_csrw csr value
    have hcsr : field w 16 8 = csr := field_eq_of_toNat (by omega)
    have hvalue : field w 0 16 = value := field_eq_of_toNat (by omega)
    simp [Instr.opcode, operandsOf, hcsr, hvalue]
  | bufr win idx =>
    have hn := hw ▸ toNat_encode_bufr win idx
    have hwin : field w 22 2 = windowBits win := field_eq_of_toNat (by omega)
    have hidx : field w 16 5 = idx := field_eq_of_toNat (by omega)
    simp [Instr.opcode, operandsOf, hwin, hidx]
  | bufw win idx byte =>
    have hn := hw ▸ toNat_encode_bufw win idx byte
    have hwin : field w 22 2 = windowBits win := field_eq_of_toNat (by omega)
    have hidx : field w 16 5 = idx := field_eq_of_toNat (by omega)
    have hbyte : field w 0 8 = byte := field_eq_of_toNat (by omega)
    simp [Instr.opcode, operandsOf, hwin, hidx, hbyte]
  | gentbl chA chB =>
    have hn := hw ▸ toNat_encode_gentbl chA chB
    have hA : field w 8 8 = chA := field_eq_of_toNat (by omega)
    have hB : field w 0 8 = chB := field_eq_of_toNat (by omega)
    simp [Instr.opcode, operandsOf, hA, hB]
  | lookup src ch =>
    have hn := hw ▸ toNat_encode_lookup src ch
    have hsrc : field w 8 1 = channelSourceBit src := field_eq_of_toNat (by omega)
    have hch : field w 0 7 = ch := field_eq_of_toNat (by omega)
    simp [Instr.opcode, operandsOf, hsrc, hch]
  | pnrd row code k =>
    have hn := hw ▸ toNat_encode_pnrd row code k
    have hrow : field w 8 3 = row := field_eq_of_toNat (by omega)
    have hcode : field w 4 1 = codeSelectBit code := field_eq_of_toNat (by omega)
    have hk : field w 0 4 = k := field_eq_of_toNat (by omega)
    simp [Instr.opcode, operandsOf, hrow, hcode, hk]
  | bbind nch proto =>
    have hn := hw ▸ toNat_encode_bbind nch proto
    have hnch : field w 8 8 = nch := field_eq_of_toNat (by omega)
    have hproto : field w 0 8 = proto := field_eq_of_toNat (by omega)
    simp [Instr.opcode, operandsOf, hnch, hproto]
  | vbind capture matchId =>
    have hn := hw ▸ toNat_encode_vbind capture matchId
    have hcapture : field w 1 1 = BitVec.ofBool capture := field_eq_of_toNat (by omega)
    have hmatchId : field w 0 1 = BitVec.ofBool matchId := field_eq_of_toNat (by omega)
    simp [Instr.opcode, operandsOf, hcapture, hmatchId]
  | bcmd loss len =>
    have hn := hw ▸ toNat_encode_bcmd loss len
    have hloss : field w 8 1 = BitVec.ofBool loss := field_eq_of_toNat (by omega)
    have hlen : field w 0 5 = len := field_eq_of_toNat (by omega)
    simp [Instr.opcode, operandsOf, hloss, hlen]
  | ins rb src len =>
    have hn := hw ▸ toNat_encode_ins rb src len
    have hrb : field w 16 1 = ringBit rb := field_eq_of_toNat (by omega)
    have hsrc : field w 12 1 = insSourceBit src := field_eq_of_toNat (by omega)
    have hlen : field w 0 5 = len := field_eq_of_toNat (by omega)
    simp [Instr.opcode, operandsOf, hrb, hsrc, hlen]
  | ext rb max =>
    have hn := hw ▸ toNat_encode_ext rb max
    have hrb : field w 16 1 = ringBit rb := field_eq_of_toNat (by omega)
    have hmax : field w 0 5 = max := field_eq_of_toNat (by omega)
    simp [Instr.opcode, operandsOf, hrb, hmax]
  | rbq rb =>
    have hn := hw ▸ toNat_encode_rbq rb
    have hrb : field w 16 1 = ringBit rb := field_eq_of_toNat (by omega)
    simp [Instr.opcode, operandsOf, hrb]
  | rbclr rb =>
    have hn := hw ▸ toNat_encode_rbclr rb
    have hrb : field w 16 1 = ringBit rb := field_eq_of_toNat (by omega)
    simp [Instr.opcode, operandsOf, hrb]

/-- Settles O1: the word of a command belongs to its opcode's row, and holds each operand in its own
field. -/
theorem decodeOfEncode : Obligations.DecodeOfEncode := by
  unfold Obligations.DecodeOfEncode
  exact fun i => decode_eq_ok_iff.mpr ⟨i.opcode, row_holds_encode i, operandsOf_encode i⟩

/-! ### Encoding the command of a word -/

/-- A field that a format's mask leaves out is zero in a word of the opcode's row
(30_encoding.md R86). -/
theorem reserved_field_eq_zero {op : Opcode} {w : Word} (h : op.row.holds w = true) (lo len : Nat)
    (hle : lo + len ≤ 24) (hm : (legalMask (formatOf op)).extractLsb' lo len = 0) :
    w.toNat / 2 ^ lo % 2 ^ len = 0 := by
  have hres := (row_holds_iff.mp h).2
  have hfield : field w lo len = 0 := by
    apply BitVec.eq_of_getLsbD_eq
    intro i hi
    have hin : lo + i < 24 := by omega
    have hmask : (legalMask (formatOf op)).getLsbD (lo + i) = false := by
      simpa [hi] using congrArg (BitVec.getLsbD · i) hm
    rw [BitVec.getLsbD_eq_getElem hin] at hmask
    have hbit := congrArg (BitVec.getLsbD · (lo + i)) hres
    simpa [field, hi, hin, hmask] using hbit
  rw [← toNat_field, hfield]
  rfl

/-- The fields of a word and the zeros in the reserved places are all of its bits. -/
theorem encode_operandsOf {op : Opcode} {w : Word} (h : op.row.holds w = true) :
    encode (operandsOf op w) = w := by
  have hop : w.toNat / 2 ^ 24 % 2 ^ 8 = op.byte.toNat := by
    rw [← toNat_field, (row_holds_iff.mp h).1]
  have hres := reserved_field_eq_zero h
  apply BitVec.eq_of_toNat_eq
  cases op with
  | nop | derive | hop | flip | classify =>
    have h0 := hres 0 24 (by decide) rfl
    simp only [operandsOf, toNat_encode_nop, toNat_encode_derive, toNat_encode_hop,
      toNat_encode_flip, toNat_encode_classify, Nat.zero_mul, Opcode.byte,
      BitVec.reduceToNat] at hop ⊢
    omega
  | csrr =>
    have h0 := hres 0 16 (by decide) rfl
    simp only [operandsOf, toNat_encode_csrr, toNat_field, Opcode.byte, BitVec.reduceToNat] at hop ⊢
    omega
  | csrw =>
    simp only [operandsOf, toNat_encode_csrw, toNat_field, Opcode.byte, BitVec.reduceToNat] at hop ⊢
    omega
  | bufr =>
    have h21 := hres 21 1 (by decide) rfl
    have h0 := hres 0 16 (by decide) rfl
    simp only [operandsOf, toNat_encode_bufr, windowBits_windowOf, toNat_field, Opcode.byte,
      BitVec.reduceToNat] at hop ⊢
    omega
  | bufw =>
    have h21 := hres 21 1 (by decide) rfl
    have h8 := hres 8 8 (by decide) rfl
    simp only [operandsOf, toNat_encode_bufw, windowBits_windowOf, toNat_field, Opcode.byte,
      BitVec.reduceToNat] at hop ⊢
    omega
  | gentbl | bbind =>
    have h16 := hres 16 8 (by decide) rfl
    simp only [operandsOf, toNat_encode_gentbl, toNat_encode_bbind, toNat_field, Opcode.byte,
      BitVec.reduceToNat] at hop ⊢
    omega
  | lookup =>
    have h9 := hres 9 15 (by decide) rfl
    have h7 := hres 7 1 (by decide) rfl
    simp only [operandsOf, toNat_encode_lookup, channelSourceBit_channelSourceOf, toNat_field,
      Opcode.byte, BitVec.reduceToNat] at hop ⊢
    omega
  | pnrd =>
    have h11 := hres 11 13 (by decide) rfl
    have h5 := hres 5 3 (by decide) rfl
    simp only [operandsOf, toNat_encode_pnrd, codeSelectBit_codeSelectOf, toNat_field, Opcode.byte,
      BitVec.reduceToNat] at hop ⊢
    omega
  | vbind =>
    have h2 := hres 2 22 (by decide) rfl
    simp only [operandsOf, toNat_encode_vbind, ofBool_flagOf, toNat_field, Opcode.byte,
      BitVec.reduceToNat] at hop ⊢
    omega
  | bcmd =>
    have h9 := hres 9 15 (by decide) rfl
    have h5 := hres 5 3 (by decide) rfl
    simp only [operandsOf, toNat_encode_bcmd, ofBool_flagOf, toNat_field, Opcode.byte,
      BitVec.reduceToNat] at hop ⊢
    omega
  | ins =>
    have h17 := hres 17 7 (by decide) rfl
    have h13 := hres 13 3 (by decide) rfl
    have h5 := hres 5 7 (by decide) rfl
    simp only [operandsOf, toNat_encode_ins, ringBit_ringOf, insSourceBit_insSourceOf, toNat_field,
      Opcode.byte, BitVec.reduceToNat] at hop ⊢
    omega
  | ext =>
    have h17 := hres 17 7 (by decide) rfl
    have h5 := hres 5 11 (by decide) rfl
    simp only [operandsOf, toNat_encode_ext, ringBit_ringOf, toNat_field, Opcode.byte,
      BitVec.reduceToNat] at hop ⊢
    omega
  | rbq | rbclr =>
    have h17 := hres 17 7 (by decide) rfl
    have h0 := hres 0 16 (by decide) rfl
    simp only [operandsOf, toNat_encode_rbq, toNat_encode_rbclr, ringBit_ringOf, toNat_field,
      Opcode.byte, BitVec.reduceToNat] at hop ⊢
    omega

/-- Settles O2: an accepted word has no bit outside the fields that are read from it. -/
theorem encodeOfDecode : Obligations.EncodeOfDecode := by
  unfold Obligations.EncodeOfDecode
  intro w i h
  obtain ⟨op, hop, rfl⟩ := decode_eq_ok_iff.mp h
  exact encode_operandsOf hop

end Sys2Proof
end

section
/-! SUPPORT. What the encoding rules say of a step: the words that are no command (30_encoding.md R85,
R86), the one response of a command (R89), the operand ranges that decide its status (R83), and the
examples of the assembler (R91). -/

namespace Sys2Proof.Machine

open Sys2Proof

/-! ### Words that are no command -/

/-- A word that is no command ends with the error its decoding names, and nothing else
(30_encoding.md R93). -/
theorem step_of_decode_error {s : State} {w : Word} {rest : List Word} {e : DecodeError}
    (hp : s.port = w :: rest) (hd : decode w = .error e) :
    step s = .next (afterError { s with port := rest } (decodeErrCode e)) := by
  rw [step_of_port hp, hd, ← raise_eq_afterError]
  rfl

/-- The opcodes of 30_encoding.md R85 are not defined. -/
theorem opcodeOf_eq_none {b : BitVec 8} (h : (0x05 ≤ b.toNat ∧ b.toNat ≤ 0x0F) ∨
    (0x16 ≤ b.toNat ∧ b.toNat ≤ 0x1F) ∨ (0x24 ≤ b.toNat ∧ b.toNat ≤ 0x2F) ∨ 0x34 ≤ b.toNat) :
    opcodeOf b = none := by
  cases hb : opcodeOf b with
  | none => rfl
  | some op =>
    obtain rfl := opcodeOf_eq_some_iff.mp hb
    exact absurd h (by cases op <;> decide)

/-- Settles O4: the opcode map has no entry for such an opcode. -/
theorem undefinedOpcodesAreIllegal : Obligations.UndefinedOpcodesAreIllegal := by
  unfold Obligations.UndefinedOpcodesAreIllegal
  intro s w rest hp hop
  refine step_of_decode_error (e := .illegalOpcode) hp ?_
  have hnone : opcodeOf (field w 24 8) = none := opcodeOf_eq_none (hop _ rfl)
  rw [decode, hnone]

/-- A word of a defined opcode with a reserved bit set is no command (30_encoding.md R86). -/
theorem decode_of_reserved {op : Opcode} {w : Word} (hop : field w 24 8 = op.byte)
    (hres : field w 0 24 &&& ~~~(legalMask (formatOf op)) ≠ 0) :
    decode w = .error .reservedNonzero := by
  rw [decode, opcodeOf_eq_some_iff.mpr hop]
  exact if_pos hres

/-- Settles O5: each pair is the byte of an opcode and the legal mask of its format. -/
theorem reservedBitsAreRefused : Obligations.ReservedBitsAreRefused := by
  unfold Obligations.ReservedBitsAreRefused
  intro p hp s w rest hport hop hres
  have hpairs : p ∈ allOpcodes.map fun op => (op.byte.toNat, legalMask (formatOf op)) := by
    clear hop hres
    revert p
    decide
  obtain ⟨op, -, rfl⟩ := List.mem_map.mp hpairs
  exact step_of_decode_error hport (decode_of_reserved (BitVec.eq_of_toNat_eq hop) hres)

/-! ### The response of a command -/

/-- The status codes are 0 to 6, and 0 is OK (60_exceptions.md R230). -/
theorem statusBits_spec (x : Status) :
    (statusBits x).toNat ≤ 6 ∧ ((statusBits x).toNat = 0 ↔ x = .ok) := by
  cases x with
  | ok => decide
  | err e => cases e <;> decide

/-- Settles O12: an error and an OK answer each append one response, and no effect touches the port
or the responses. -/
theorem oneResponsePerCommand : Obligations.OneResponsePerCommand := by
  unfold Obligations.OneResponsePerCommand
  intro s t w rest hp h
  rcases step_cases hp h with ⟨e, rfl⟩ | ⟨i, u, d, -, rfl, hE⟩
  · exact ⟨rfl, _, rfl, fun _ => rfl, statusBits_spec _⟩
  · obtain ⟨hport, hresp, -, -⟩ := effect_frame hE
    refine ⟨hport, ⟨.ok, d⟩, ?_, fun hne => absurd rfl hne, statusBits_spec _⟩
    rw [respond_responses, hresp]

/-! ### Operand ranges -/

theorem endsErr_of_fail {i : Instr} {s : State} {e : ErrCode} (h : exec i s = fail s e) :
    EndsErr i s e := by
  rw [EndsErr, h, ← raise_eq_afterError]
  rfl

theorem endsOk_of_done {i : Instr} {s u : State} {d : Word} (h : exec i s = done u d)
    (hr : u.responses = s.responses) : EndsOk i s u d := by
  rw [EndsOk, h, ← hr]
  rfl

/-- The addresses without a CSR are those above 0x0B (10_state.md R37). -/
theorem csrAt_eq_none_iff {a : BitVec 8} : csrAt a = none ↔ 0x0B < a.toNat := by
  unfold csrAt
  split <;> grind

/-- A byte past the end of a window is none, and BUFR of it is out of range (20_memory.md R62). -/
theorem windowByte_eq_none_iff {s : State} {win : Window} {idx : BitVec 5} :
    windowByte s win idx.toNat = none ↔ (Instr.bufr win idx).wellFormed = false := by
  cases win <;> simp [Instr.wellFormed, windowByte]

/-- A CSRW whose operands fail the state-independent ranges is refused (40_register_access.md R112). -/
theorem execCsrw_of_not_wellFormed {a : BitVec 8} {v : BitVec 16} (s : State)
    (h : (Instr.csrw a v).wellFormed = false) : ∃ e, execCsrw a v s = fail s e := by
  cases hc : csrAt a with
  | none => exact ⟨.badCsr, by rw [execCsrw, hc]⟩
  | some c =>
    obtain rfl := csrAt_eq_some hc
    cases c with
    | code | crcBase | tbl | status | bindInfo => exact ⟨.readOnly, rfl⟩
    | rxLen =>
      have hv : 16 < v.toNat := by simpa [Instr.wellFormed, csrAddress] using h
      exact ⟨.badOperand, by simp [execCsrw, hc, csrWrite, hv]⟩
    | idHi | idLo | cfg | crcCur | hopIdx | err => simp [Instr.wellFormed, csrAddress] at h

/-- A CSRW whose operands pass them is refused only as CSRW HOP_IDX, for want of a table or by its
length (40_register_access.md R112). -/
theorem execCsrw_of_wellFormed {a : BitVec 8} {v : BitVec 16} {s : State}
    (h : (Instr.csrw a v).wellFormed = true)
    (hhop : a = 0x06 → s.tvalid = true ∧ v.toNat < s.tblLen.toNat) :
    ∃ u, execCsrw a v s = done u 0 ∧ u.responses = s.responses := by
  cases hc : csrAt a with
  | none =>
    have hle : a.toNat ≤ 0x0B := by
      simp only [Instr.wellFormed, Bool.and_eq_true, decide_eq_true_eq] at h
      obtain ⟨⟨hle, -⟩, -⟩ := h
      exact hle
    exact absurd hle (csrAt_eq_none_iff.mp hc).not_ge
  | some c =>
    obtain rfl := csrAt_eq_some hc
    cases c with
    | code | crcBase | tbl | status | bindInfo => simp [Instr.wellFormed, csrAddress] at h
    | rxLen =>
      have hv : v.toNat ≤ 16 := by simpa [Instr.wellFormed, csrAddress] using h
      exact ⟨{ s with rxLen := v.setWidth 5 }, by simp [execCsrw, hc, csrWrite, hv.not_gt], rfl⟩
    | hopIdx =>
      obtain ⟨hvalid, hv⟩ := hhop rfl
      exact ⟨{ s with hopIdx := v.setWidth 5 },
        by simp [execCsrw, hc, csrWrite, hvalid, hv.not_ge], rfl⟩
    | idHi | idLo | cfg | crcCur | err => exact ⟨_, rfl, rfl⟩

/-- A command whose operands fail the state-independent ranges raises an error (30_encoding.md
R83). -/
theorem exec_of_not_wellFormed {i : Instr} (s : State) (h : i.wellFormed = false) :
    ∃ e, exec i s = fail s e := by
  cases i with
  | csrr a =>
    have ha : csrAt a = none := csrAt_eq_none_iff.mpr (by simpa [Instr.wellFormed] using h)
    exact ⟨.badCsr, by simp [exec, execCsrr, ha]⟩
  | csrw a v => exact execCsrw_of_not_wellFormed s h
  | bufr win idx =>
    have hnone : windowByte s win idx.toNat = none := windowByte_eq_none_iff.mpr h
    exact ⟨.badOperand, by simp [exec, execBufr, hnone]⟩
  | bufw win idx byte =>
    by_cases hw : win = .cht
    · exact ⟨.readOnly, by simp [exec, execBufw, hw]⟩
    · have hidx : 16 ≤ idx.toNat := by simpa [Instr.wellFormed, hw] using h
      exact ⟨.badOperand, by simp [exec, execBufw, hw, hidx]⟩
  | pnrd row code k =>
    refine ⟨.badOperand, ?_⟩
    by_cases hrow : row.toNat < 5
    · have hk : code = .sop ∧ 7 < k.toNat := by
        simpa [Instr.wellFormed, Nat.le_of_lt_succ hrow] using h
      exact (dif_pos hrow).trans (if_pos hk)
    · exact dif_neg hrow
  | bcmd loss len =>
    have hlen : 14 < len.toNat := by simpa [Instr.wellFormed] using h
    exact ⟨.badOperand, if_pos hlen⟩
  | ins rb src len =>
    have hlen : insertLimit src < len.toNat := by
      cases src <;> simpa [Instr.wellFormed, insertLimit] using h
    exact ⟨.badOperand, if_pos hlen⟩
  | ext rb max =>
    have hmax : 16 < max.toNat := by simpa [Instr.wellFormed] using h
    exact ⟨.badOperand, if_pos hmax⟩
  | nop | derive | gentbl | hop | flip | lookup | bbind | vbind | classify | rbq | rbclr => cases h

/-- What a command whose operands pass their ranges still asks of the state
(40_register_access.md R112; 41_channel_sequencer.md R130, R137; 42_code_selector.md R155). -/
structure Admits (i : Instr) (s : State) : Prop where
  table : i = .hop ∨ (∃ ch, i = .lookup .table ch) → s.tvalid = true
  index : ∀ v, i = .csrw 0x06 v → s.tvalid = true ∧ v.toNat < s.tblLen.toNat
  pair : ∀ a b, i = .gentbl a b → s.proto = .dsm2 →
    3 ≤ a.toNat ∧ a.toNat ≤ 76 ∧ 3 ≤ b.toNat ∧ b.toNat ≤ 76 ∧ a ≠ b

/-- BUFW of a byte of RXP, TXP or STG (40_register_access.md R114). -/
theorem exec_bufw {win : Window} (hw : win ≠ .cht) (s : State) {i : BitVec 5} (h : i.toNat < 16)
    (b : Byte) : exec (.bufw win i b) s = done (setWindowByte s win i.toNat b) 0 :=
  (if_neg hw).trans (if_neg (Nat.not_le.mpr h))

theorem execGentbl_dsm2 {a b : Byte} {s : State} (h : s.proto = .dsm2) :
    execGentbl a b s = gentblDsm2 a b s := by
  rw [execGentbl, h]

theorem execGentbl_dsmx {a b : Byte} {s : State} (h : s.proto = .dsmx) :
    execGentbl a b s = gentblDsmx s := by
  rw [execGentbl, h]

/-- GENTBL of a legal pair, or in DSMX mode, generates a table (41_channel_sequencer.md R130). -/
theorem execGentbl_of_admits {a b : Byte} {s : State} (h : Admits (.gentbl a b) s) :
    ∃ u d, execGentbl a b s = done u d ∧ u.responses = s.responses := by
  cases hp : s.proto with
  | dsm2 =>
    obtain ⟨ha, ha', hb, hb', hne⟩ := h.pair a b rfl hp
    have hpair : pairRefused a b = false := by simp [pairRefused, *]
    exact ⟨_, _, (execGentbl_dsm2 hp).trans (if_neg (by rw [hpair]; decide)), rfl⟩
  | dsmx =>
    obtain ⟨table, it, -, heq⟩ := gentblDsmx_eq s
    exact ⟨_, _, (execGentbl_dsmx hp).trans heq, rfl⟩

/-- A command whose operands pass their ranges answers in every state that admits it
(30_encoding.md R83). -/
theorem exec_of_wellFormed {i : Instr} {s : State} (h : i.wellFormed = true) (ha : Admits i s) :
    ∃ u d, exec i s = done u d ∧ u.responses = s.responses := by
  cases i with
  | nop | derive | flip | bbind | classify | rbq => exact ⟨_, _, rfl, rfl⟩
  | csrr a =>
    have hle : a.toNat ≤ 0x0B := by simpa [Instr.wellFormed] using h
    cases hc : csrAt a with
    | none => exact absurd hle (csrAt_eq_none_iff.mp hc).not_ge
    | some c => exact ⟨_, _, by simp only [exec, execCsrr, hc]; rfl, rfl⟩
  | csrw a v =>
    obtain ⟨u, hu, hr⟩ := execCsrw_of_wellFormed h fun h6 => ha.index v (h6 ▸ rfl)
    exact ⟨u, 0, hu, hr⟩
  | bufr win idx =>
    cases hb : windowByte s win idx.toNat with
    | none => exact absurd h (by simp [windowByte_eq_none_iff.mp hb])
    | some b => exact ⟨_, _, by simp only [exec, execBufr, hb]; rfl, rfl⟩
  | bufw win idx byte =>
    obtain ⟨hw, hidx⟩ : win ≠ .cht ∧ idx.toNat < 16 := by simpa [Instr.wellFormed] using h
    exact ⟨_, _, exec_bufw hw s hidx byte, by cases win <;> rfl⟩
  | gentbl a b => exact execGentbl_of_admits ha
  | hop =>
    have hvalid := ha.table (.inl rfl)
    exact ⟨_, _, if_neg (by simp [hvalid]), rfl⟩
  | lookup src ch =>
    cases src with
    | table =>
      have hvalid := ha.table (.inr ⟨ch, rfl⟩)
      exact ⟨_, _, if_neg (by simp [hvalid]), rfl⟩
    | operand => exact ⟨_, _, rfl, rfl⟩
  | pnrd row code k =>
    obtain ⟨hrow, hk⟩ : row.toNat ≤ 4 ∧ (code = .sop → k.toNat ≤ 7) := by
      simpa [Instr.wellFormed, imp_iff_not_or] using h
    exact ⟨_, _, (dif_pos (Nat.lt_succ_of_le hrow)).trans
      (if_neg fun ⟨hc, hlt⟩ => (hk hc).not_gt hlt), rfl⟩
  | vbind c m =>
    by_cases hcap : (vbindOk m s && c) = true
    · exact ⟨_, _, if_pos hcap, rfl⟩
    · exact ⟨_, _, if_neg hcap, rfl⟩
  | bcmd loss len =>
    have hlen : ¬ 14 < len.toNat := by simpa [Instr.wellFormed] using h
    exact ⟨_, _, if_neg hlen, rfl⟩
  | ins rb src len =>
    have hlen : ¬ insertLimit src < len.toNat := by
      cases src <;> simpa [Instr.wellFormed, insertLimit] using h
    by_cases hfree : len.toNat ≤ rbFree s rb
    · exact ⟨_, _, (if_neg hlen).trans (if_pos hfree), setRing_responses ..⟩
    · exact ⟨_, _, (if_neg hlen).trans (if_neg hfree), rfl⟩
  | ext rb max =>
    have hmax : ¬ 16 < max.toNat := by simpa [Instr.wellFormed] using h
    exact ⟨_, _, if_neg hmax, by simp [rbDrop]⟩
  | rbclr rb => exact ⟨_, _, rfl, setRing_responses ..⟩

/-- Settles O24: out-of-range operands always raise an error, and no other error is left in a state
that admits the command. -/
theorem operandRangesDecideStatus : Obligations.OperandRangesDecideStatus := by
  unfold Obligations.OperandRangesDecideStatus
  constructor
  · intro i s h
    obtain ⟨e, he⟩ := exec_of_not_wellFormed s h
    exact ⟨e, endsErr_of_fail he⟩
  · intro i s h htable hindex hpair
    obtain ⟨u, d, hu, hr⟩ := exec_of_wellFormed h ⟨htable, hindex, hpair⟩
    exact ⟨u, d, endsOk_of_done hu hr⟩

/-! ### The examples of the assembler -/

/-- Settles O6: by decoding the five words. -/
theorem exampleWordsDecode : Obligations.ExampleWordsDecode := by
  unfold Obligations.ExampleWordsDecode
  decide

/-- Settles O7: by assembling the five lines. -/
theorem exampleLinesAssemble : Obligations.ExampleLinesAssemble := by
  unfold Obligations.ExampleLinesAssemble
  decide

end Sys2Proof.Machine
end

section
/-! SUPPORT. What the expansions of the pseudo-instructions do (30_encoding.md R92): the commands of
LDRX and LDSTG write consecutive bytes of a window. -/

namespace Sys2Proof.Machine

open Sys2Proof

/-- Where the first commands answer, the rest go on from the state they leave (30_encoding.md R92). -/
theorem execAll_append {is js : List Instr} {s t : State} (h : execAll is s = .next t) :
    execAll (is ++ js) s = execAll js t := by
  induction is generalizing s with
  | nil =>
    cases h
    rfl
  | cons i is ih =>
    simp only [List.cons_append, execAll] at h ⊢
    cases hi : exec i s with
    | next u =>
      rw [hi] at h
      exact ih h
    | fault | refused =>
      rw [hi] at h
      cases h

/-- The bytes `d` written over the bytes of a window from index `i` on. -/
def overwrite (v : Vector Byte 16) : Nat → List Byte → Vector Byte 16
  | _, [] => v
  | i, b :: d => overwrite (v.setIfInBounds i b) (i + 1) d

/-- The bytes before and after the overwritten ones stay. -/
theorem overwrite_toList (d : List Byte) : ∀ (v : Vector Byte 16) (i : Nat), i + d.length ≤ 16 →
    (overwrite v i d).toList = v.toList.take i ++ d ++ v.toList.drop (i + d.length) := by
  induction d with
  | nil => simp [overwrite]
  | cons b d ih =>
    intro v i h
    rw [List.length_cons] at h
    have hi : i < 16 := by omega
    have htake : (v.toList.set i b).take (i + 1) = v.toList.take i ++ [b] := by
      simp [List.set_eq_take_append_cons_drop, List.take_append, hi, hi.le]
    rw [overwrite, ih _ _ (by omega), Vector.toList_setIfInBounds, htake,
      List.drop_set_of_lt (by omega), List.length_cons, Nat.add_assoc, Nat.add_comm 1]
    simp

/-- A byte of a half word of a command word (00_scope.md R9). -/
theorem extractLsb'_halfWord (v : Word) (lo : Nat) {k : Nat} (hk : k + 8 ≤ 16) :
    (v.extractLsb' lo 16).extractLsb' k 8 = v.extractLsb' (lo + k) 8 := by
  apply BitVec.eq_of_getLsbD_eq
  intro i hi
  have hin : k + i < 16 := by omega
  simp [hi, hin, Nat.add_assoc]

/-- The commands that load a window overwrite its bytes, where `put` says how the window stands in the
state. -/
theorem execAll_loadWindow {win : Window} {put : Vector Byte 16 → List Response → State}
    (hput : ∀ (v : Vector Byte 16) (rs : List Response) (i : BitVec 5) (b : Byte), i.toNat < 16 →
      exec (.bufw win i b) (put v rs) = .next (put (v.setIfInBounds i.toNat b) (rs ++ [⟨.ok, 0⟩])))
    (d : List Byte) : ∀ (v : Vector Byte 16) (rs : List Response) (i : Nat), i + d.length ≤ 16 →
      ∃ rs', execAll (loadWindow win i d) (put v rs) = .next (put (overwrite v i d) rs') := by
  induction d with
  | nil => exact fun v rs i _ => ⟨rs, rfl⟩
  | cons b d ih =>
    intro v rs i h
    rw [List.length_cons] at h
    have hi : (BitVec.ofNat 5 i).toNat = i := by simp; omega
    have hstep := hput v rs (BitVec.ofNat 5 i) b (by omega)
    rw [hi] at hstep
    simp only [loadWindow, execAll, hstep]
    exact ih _ _ _ (by omega)

/-- Settles O31: SETID and CLRERR run as they stand; LDRX and LDSTG overwrite their window from index 0
on. -/
theorem pseudoInstructionsDo : Obligations.PseudoInstructionsDo := by
  unfold Obligations.PseudoInstructionsDo
  refine ⟨fun s v => ?_, fun s p => ?_, fun s d hd => ?_, fun s => ?_⟩
  · refine ⟨_, rfl, ?_, rfl, rfl⟩
    simp [highByte, lowByte, extractLsb'_halfWord]
  · obtain ⟨rs, hrs⟩ := execAll_loadWindow (win := .rxp)
      (put := fun v rs => { s with rxp := v, responses := rs })
      (fun v rs i b h => exec_bufw (by decide) _ h b) p.toList s.rxp s.responses 0 (by simp)
    refine ⟨_, execAll_append hrs, ?_, rfl, rfl⟩
    apply Vector.toList_inj.mp
    simp [overwrite_toList]
  · obtain ⟨rs, hrs⟩ := execAll_loadWindow (win := .stg)
      (put := fun v rs => { s with stg := v, responses := rs })
      (fun v rs i b h => exec_bufw (by decide) _ h b) d s.stg s.responses 0 (by omega)
    refine ⟨_, hrs, ?_, rfl⟩
    simpa using overwrite_toList d s.stg 0 (by omega)
  · refine ⟨_, rfl, ?_, rfl⟩
    simp

end Sys2Proof.Machine
end

section
/-! SUPPORT. What NOP, CSRR, CSRW, BUFR and BUFW do (40_register_access.md): the read value of each CSR
as a number, the fields of a written value, and the bytes of the windows. -/

namespace Sys2Proof.Machine

open Sys2Proof

/-! ### NOP -/

/-- Settles O26: NOP has no operand bits, so a nonzero word with its opcode has a reserved bit set. -/
theorem nopDoesNothing : Obligations.NopDoesNothing := by
  unfold Obligations.NopDoesNothing
  refine ⟨fun _ => rfl, fun s w rest hp hop hw => ?_⟩
  have hbyte : field w 24 8 = Opcode.nop.byte := BitVec.eq_of_toNat_eq hop
  have hbits : field w 0 24 ≠ 0 := fun h0 => hw <| by
    rw [← opcode_append_operandBits w, hbyte, h0]
    rfl
  have hres : field w 0 24 &&& ~~~(legalMask (formatOf .nop)) ≠ 0 := by
    have hmask : ~~~(legalMask (formatOf .nop)) = BitVec.allOnes 24 := rfl
    rwa [hmask, BitVec.and_allOnes]
  exact step_of_decode_error hp (decode_of_reserved hbyte hres)

/-! ### CSR addresses -/

theorem csrAt_csrAddress (c : Csr) : csrAt (csrAddress c) = some c := by cases c <;> rfl

/-! ### CSRR -/

/-- A flag of a CSR as a number (00_scope.md R9). -/
theorem toNat_ofBool_eq_bit (b : Bool) : (BitVec.ofBool b).toNat = bit (b = true) := by
  cases b <;> rfl

/-- sop_col is the number of 42_code_selector.md R150. -/
theorem toNat_sopCol (s : State) : (sopCol s.mid).toNat = sopNumber s := by
  simp [sopCol, sopNumber]

/-- data_col is the number of 42_code_selector.md R150. -/
theorem toNat_dataCol (s : State) : (dataCol s.mid).toNat = 7 - sopNumber s := by
  rw [dataCol, toNat_sopCol, BitVec.toNat_ofNat]
  omega

/-- crc_base is the number of 42_code_selector.md R152. -/
theorem toNat_crcBase (s : State) : (crcBase s.mid).toNat = seedNumber s := by
  rw [crcBase, BitVec.toNat_not, toNat_append_eq, seedNumber]
  omega

/-- The complement of crc_base, which STATUS[1] compares with (10_state.md R36). -/
theorem toNat_not_crcBase (s : State) : (~~~(crcBase s.mid)).toNat = 0xFFFF - seedNumber s := by
  rw [BitVec.toNat_not, toNat_crcBase]

/-- The read value of a CSR as the arithmetic of 10_state.md R26-R36. -/
def csrNumber (s : State) : Csr → Nat
  | .idHi => 256 * s.mid[0].toNat + s.mid[1].toNat
  | .idLo => 256 * s.mid[2].toNat + s.mid[3].toNat
  | .cfg => bit (s.proto = .dsmx) + 2 * bit (s.clsPlus2 = true) + 4 * bit (s.frm0 = true)
      + 8 * bit (s.frm1 = true)
  | .code => sopNumber s + 8 * (7 - sopNumber s)
  | .crcBase => seedNumber s
  | .crcCur => s.crcCur.toNat
  | .hopIdx => s.hopIdx.toNat
  | .tbl => s.tblLen.toNat + 256 * bit (s.tvalid = true)
  | .status => bit (s.crcCur.toNat = seedNumber s)
      + 2 * bit (s.crcCur.toNat = 0xFFFF - seedNumber s)
  | .err => 2 * s.err.toNat
  | .bindInfo => 256 * s.bindNch.toNat + s.bindProto.toNat
  | .rxLen => s.rxLen.toNat

/-- CFG reads as its four flags (10_state.md R27). -/
theorem cfgRead_eq_flags (s : State) :
    cfgRead s = 0#12 ++ BitVec.ofBool s.frm1 ++ BitVec.ofBool s.frm0 ++ BitVec.ofBool s.clsPlus2
      ++ BitVec.ofBool (decide (s.proto = .dsmx)) := by
  unfold cfgRead
  cases s.proto <;> rfl

theorem toNat_cfgRead (s : State) : (cfgRead s).toNat = csrNumber s .cfg := by
  simp only [cfgRead_eq_flags, csrNumber, toNat_append_eq, toNat_ofBool_eq_bit, decide_eq_true_eq,
    BitVec.toNat_ofNat]
  omega

theorem toNat_statusRead (s : State) : (statusRead s).toNat = csrNumber s .status := by
  simp only [statusRead, csrNumber, toNat_append_eq, toNat_ofBool_eq_bit, beq_iff_eq,
    ← BitVec.toNat_inj, toNat_crcBase, toNat_not_crcBase, BitVec.toNat_ofNat]
  omega

/-- Every CSR reads as the rules' arithmetic (10_state.md R26-R36). -/
theorem toNat_csrRead (s : State) (c : Csr) : (csrRead s c).toNat = csrNumber s c := by
  cases c with
  | cfg => exact toNat_cfgRead s
  | status => exact toNat_statusRead s
  | crcBase => exact toNat_crcBase s
  | crcCur => rfl
  | idHi | idLo | bindInfo | hopIdx | rxLen | err =>
    simp only [csrRead, csrNumber, toNat_append_eq, BitVec.toNat_ofNat]
    omega
  | code =>
    simp only [csrRead, csrNumber, toNat_append_eq, toNat_sopCol, toNat_dataCol, BitVec.toNat_ofNat]
    omega
  | tbl =>
    simp only [csrRead, csrNumber, toNat_append_eq, toNat_ofBool_eq_bit, BitVec.toNat_ofNat]
    omega

/-- CSRR of a CSR returns that number (40_register_access.md R111). -/
theorem endsOk_csrr_csrNumber (s : State) (c : Csr) :
    EndsOk (.csrr (csrAddress c)) s s (BitVec.ofNat 32 (csrNumber s c)) := by
  rw [← toNat_csrRead, BitVec.ofNat_toNat]
  exact endsOk_csrr s (csrAt_csrAddress c)

/-- Settles O27: each clause is the read value of the CSR at its address. -/
theorem csrrReturnsReadValue : Obligations.CsrrReturnsReadValue := by
  unfold Obligations.CsrrReturnsReadValue
  intro s
  have hread := endsOk_csrr_csrNumber s
  refine ⟨hread .idHi, hread .idLo, hread .cfg, hread .code, hread .crcBase, hread .crcCur,
    hread .hopIdx, hread .tbl, hread .status, hread .err, hread .bindInfo, hread .rxLen,
    fun a ha => endsErr_of_fail ?_⟩
  simp only [exec, execCsrr, csrAt_eq_none_iff.mpr ha]

/-! ### CSRW -/

/-- A field of a written value as a number (00_scope.md R9). -/
theorem extractLsb'_eq_ofNat {n : Nat} (v : BitVec n) (lo len : Nat) :
    v.extractLsb' lo len = BitVec.ofNat len (v.toNat / 2 ^ lo) := by
  rw [BitVec.extractLsb', Nat.shiftRight_eq_div_pow]

/-- A bit of a written value as a number (00_scope.md R9). -/
theorem getLsbD_eq_decide {n : Nat} (v : BitVec n) (i : Nat) :
    v.getLsbD i = decide (v.toNat / 2 ^ i % 2 = 1) := by
  rw [← BitVec.testBit_toNat, Nat.testBit_eq_decide_div_mod_eq]

theorem highByte_eq_ofNat (v : BitVec 16) : highByte v = BitVec.ofNat 8 (v.toNat / 256) :=
  extractLsb'_eq_ofNat v 8 8

theorem lowByte_eq_ofNat (v : BitVec 16) : lowByte v = BitVec.ofNat 8 v.toNat := by
  rw [lowByte, extractLsb'_eq_ofNat, Nat.pow_zero, Nat.div_one]

theorem protoOf_eq_ite (v : BitVec 16) :
    protoOf v = if v.toNat % 2 = 1 then .dsmx else .dsm2 := by
  simp only [protoOf, getLsbD_eq_decide, Nat.pow_zero, Nat.div_one, decide_eq_true_eq]

/-- The write of CFG, its bits as numbers (10_state.md R27). -/
theorem cfgWrite_eq (s : State) (v : BitVec 16) :
    cfgWrite s v = { s with
      proto := protoOf v
      tvalid := s.tvalid && decide (protoOf v = s.proto)
      clsPlus2 := decide (v.toNat / 2 % 2 = 1)
      frm0 := decide (v.toNat / 4 % 2 = 1)
      frm1 := decide (v.toNat / 8 % 2 = 1) } := by
  have htvalid : (if protoOf v = s.proto then s.tvalid else false)
      = (s.tvalid && decide (protoOf v = s.proto)) := by
    split <;> simp [*]
  simp only [cfgWrite, htvalid, getLsbD_eq_decide, Nat.pow_one, Nat.reducePow]

/-- CSRW of a CSR that takes the value performs its write behaviour (40_register_access.md R112). -/
theorem endsOk_csrw {s u : State} {v : BitVec 16} (c : Csr) (h : csrWrite s c v = .ok u) :
    EndsOk (.csrw (csrAddress c) v) s u 0 := by
  have hc := csrAt_csrAddress c
  obtain ⟨-, hresp, -, -⟩ := effect_frame (i := .csrw (csrAddress c) v) ⟨c, hc, h⟩
  exact endsOk_of_done (by simp only [exec, execCsrw, hc, h]) hresp

/-- CSRW of a CSR that refuses the value raises its error (40_register_access.md R112). -/
theorem endsErr_csrw {s : State} {v : BitVec 16} {e : ErrCode} (c : Csr)
    (h : csrWrite s c v = .error e) : EndsErr (.csrw (csrAddress c) v) s e :=
  endsErr_of_fail (by simp only [exec, execCsrw, csrAt_csrAddress, h])

/-- Settles O28: each clause is the write behaviour of the CSR at its address. -/
theorem csrwPerformsWrite : Obligations.CsrwPerformsWrite := by
  unfold Obligations.CsrwPerformsWrite
  intro s v
  refine ⟨?idHi, ?idLo, ?cfg, endsOk_csrw .crcCur rfl, ?noTable, ?pastTable, ?inTable, ?err,
    ?pastLength, ?inLength, ?readOnly, ?absent⟩
  case idHi => exact endsOk_csrw .idHi (by simp only [csrWrite, highByte_eq_ofNat, lowByte_eq_ofNat])
  case idLo => exact endsOk_csrw .idLo (by simp only [csrWrite, highByte_eq_ofNat, lowByte_eq_ofNat])
  case cfg =>
    rintro p rfl
    rw [← protoOf_eq_ite]
    exact endsOk_csrw .cfg (congrArg _ (cfgWrite_eq s v))
  case noTable => exact fun h => endsErr_csrw .hopIdx (by simp [csrWrite, h])
  case pastTable => exact fun h hv => endsErr_csrw .hopIdx (by simp [csrWrite, h, hv])
  case inTable => exact fun h hv => endsOk_csrw .hopIdx (by simp [csrWrite, h, hv.not_ge])
  case err => exact endsOk_csrw .err (by rw [csrWrite, extractLsb'_eq_ofNat, Nat.pow_one])
  case pastLength => exact fun hv => endsErr_csrw .rxLen (by simp [csrWrite, hv])
  case inLength => exact fun hv => endsOk_csrw .rxLen (by simp [csrWrite, hv.not_gt])
  case readOnly =>
    simp only [List.forall_mem_cons, List.not_mem_nil]
    exact ⟨endsErr_csrw .code rfl, endsErr_csrw .crcBase rfl, endsErr_csrw .tbl rfl,
      endsErr_csrw .status rfl, endsErr_csrw .bindInfo rfl, fun _ h => h.elim⟩
  case absent =>
    intro a ha
    exact endsErr_of_fail (by simp only [exec, execCsrw, csrAt_eq_none_iff.mpr ha])

/-! ### BUFR and BUFW -/

/-- BUFR of a byte of a window returns it (40_register_access.md R113). -/
theorem endsOk_bufr {s : State} {win : Window} {k : BitVec 5} {b : Byte}
    (h : windowByte s win k.toNat = some b) : EndsOk (.bufr win k) s s (BitVec.ofNat 32 b.toNat) := by
  rw [BitVec.ofNat_toNat]
  exact endsOk_of_done (by simp only [exec, execBufr, h]) rfl

/-- BUFR past the end of a window raises BAD_OPERAND (40_register_access.md R113). -/
theorem endsErr_bufr {s : State} {win : Window} {k : BitVec 5}
    (h : (Instr.bufr win k).wellFormed = false) : EndsErr (.bufr win k) s .badOperand :=
  endsErr_of_fail (by simp only [exec, execBufr, windowByte_eq_none_iff.mpr h])

/-- Settles O29: a byte within its window is found, and one past the end is not. -/
theorem bufrReadsWindow : Obligations.BufrReadsWindow := by
  unfold Obligations.BufrReadsWindow
  refine fun s k => ⟨fun h => ⟨endsOk_bufr ?_, endsOk_bufr ?_, endsOk_bufr ?_⟩,
    fun h => endsOk_bufr ?_, fun h w hw => endsErr_bufr ?pastEnd, fun h => endsErr_bufr ?pastTable⟩
  case pastEnd => simpa [Instr.wellFormed, hw] using h
  case pastTable => simpa [Instr.wellFormed] using h
  all_goals exact Vector.getElem?_eq_getElem h

/-- BUFW of a byte of RXP, TXP or STG writes it (40_register_access.md R114). -/
theorem endsOk_bufw {win : Window} (hw : win ≠ .cht) (s : State) {k : BitVec 5} (h : k.toNat < 16)
    (b : Byte) : EndsOk (.bufw win k b) s (setWindowByte s win k.toNat b) 0 :=
  endsOk_of_done (exec_bufw hw s h b) (by cases win <;> rfl)

/-- Writing within a window needs no bound check. -/
theorem setIfInBounds_eq_set {n i : Nat} (v : Vector Byte n) (b : Byte) (h : i < n) :
    v.setIfInBounds i b = v.set i b := by
  ext j hj
  simp [Vector.getElem_setIfInBounds, Vector.getElem_set]

/-- Settles O30: CHT is refused first, then an index past the end; a byte within its window
is written. -/
theorem bufwWritesWindow : Obligations.BufwWritesWindow := by
  unfold Obligations.BufwWritesWindow
  refine fun s k b => ⟨fun h => ?_, fun h w hw => ?_, endsErr_of_fail rfl⟩
  · simp only [← setIfInBounds_eq_set _ b h]
    exact ⟨endsOk_bufw (by decide) s h b, endsOk_bufw (by decide) s h b,
      endsOk_bufw (by decide) s h b⟩
  · exact endsErr_of_fail ((if_neg hw).trans (if_pos h))

end Sys2Proof.Machine
end

section
/-! SUPPORT. What the channel sequencer does (41_channel_sequencer.md): GENTBL (R130), the generator as
the fold of its accepted candidates (R131-R135), the properties of a valid table (R138), and HOP
(R137). -/

namespace Sys2Proof.Machine

open Sys2Proof

/-! ### GENTBL -/

/-- GENTBL refuses a pair when a channel lies outside [3,76] or the two are equal
(41_channel_sequencer.md R130). -/
theorem pairRefused_eq_true_iff {a b : Byte} :
    pairRefused a b = true ↔
      a.toNat < 3 ∨ 76 < a.toNat ∨ b.toNat < 3 ∨ 76 < b.toNat ∨ a = b := by
  simp [pairRefused, or_assoc]

theorem pairRefused_eq_false_iff {a b : Byte} :
    pairRefused a b = false ↔
      3 ≤ a.toNat ∧ a.toNat ≤ 76 ∧ 3 ≤ b.toNat ∧ b.toNat ≤ 76 ∧ a ≠ b := by
  simp [pairRefused, and_assoc]

/-- The GENTBL response as a number (41_channel_sequencer.md R130). -/
theorem gentblData_eq_ofNat (it : Nat) (len : BitVec 5) :
    gentblData it len = BitVec.ofNat 32 (256 * min it 0xFFFFFF + len.toNat) := by
  apply BitVec.eq_of_toNat_eq
  simp only [gentblData, toNat_append_eq, BitVec.toNat_ofNat]
  omega

/-- Settles O32: the pair test is the disjunction of its five refusals. -/
theorem gentblLoadsDsm2Pair : Obligations.GentblLoadsDsm2Pair := by
  unfold Obligations.GentblLoadsDsm2Pair
  refine fun s a b hp => ⟨fun ha ha' hb hb' hne => ?_, fun h => ?_⟩
  · have hpair := pairRefused_eq_false_iff.mpr ⟨ha, ha', hb, hb', hne⟩
    exact endsOk_of_done ((execGentbl_dsm2 hp).trans (if_neg (by simp [hpair]))) rfl
  · have hpair := pairRefused_eq_true_iff.mpr h
    exact endsErr_of_fail ((execGentbl_dsm2 hp).trans (if_pos hpair))

/-- Settles O33: the generator fills the table, and the stored table reads back as generated. -/
theorem gentblGeneratesDsmxTable : Obligations.GentblGeneratesDsmxTable := by
  unfold Obligations.GentblGeneratesDsmxTable
  intro s a b hp
  obtain ⟨l, it, htable, -, -, hit⟩ := dsmxTable_spec s.params s.mid
  obtain ⟨hlen, hbyte⟩ := dsmxTable_bytes htable
  have hexec : exec (.gentbl a b) s = storeTable s (some (l, it)) := by
    rw [← htable]
    exact execGentbl_dsmx hp
  refine ⟨l, it, _, htable, hit, map_toNat_storedTable hlen hbyte, endsOk_of_done ?_ rfl⟩
  rw [hexec, storeTable, gentblData_eq_ofNat]
  rfl

/-! ### The generator as a fold -/

/-- The first generator word is the complement of ID32, as a number (41_channel_sequencer.md R131). -/
theorem toNat_not_id32 (mid : Vector Byte 4) : (~~~(id32 mid)).toNat = generatorWord mid 0 := by
  simp only [BitVec.toNat_not, id32, toNat_append_eq, generatorWord]
  omega

/-- The generator word x_n is n steps from the first (41_channel_sequencer.md R131). -/
theorem toNat_iterate_lcgNext (mid : Vector Byte 4) (n : Nat) :
    (lcgNext^[n] (~~~(id32 mid))).toNat = generatorWord mid n := by
  induction n with
  | zero => exact toNat_not_id32 mid
  | succ n ih => rw [Function.iterate_succ_apply', toNat_lcgNext, ih, generatorWord]

/-- The candidate of iteration n (41_channel_sequencer.md R132). -/
theorem candidate_iterate (m : ChMod) (mid : Vector Byte 4) (n : Nat) :
    candidate m (lcgNext^[n] (~~~(id32 mid))) = generatorWord mid n / 256 % m.value + 3 := by
  rw [candidate_eq, toNat_iterate_lcgNext]

/-- P[0] as the fold writes it, a number (41_channel_sequencer.md R133). -/
def parityNumber (ref : ParityRef) (mid : Vector Byte 4) : Nat :=
  match ref with
  | .inverted => generatorWord mid 0 % 2
  | .raw => mid[3].toNat % 2

theorem parityBit_eq_decide (ref : ParityRef) (mid : Vector Byte 4) :
    parityBit ref mid = decide (parityNumber ref mid = 1) := by
  cases ref with
  | inverted =>
    rw [parityBit, getLsbD_eq_decide, toNat_not_id32, Nat.pow_zero, Nat.div_one, parityNumber]
  | raw =>
    have hlow : (id32 mid).toNat % 2 = mid[3].toNat % 2 := by
      simp only [id32, toNat_append_eq]
      omega
    rw [parityBit, getLsbD_eq_decide, Nat.pow_zero, Nat.div_one, hlow, parityNumber]

/-- The parity test compares low bits (41_channel_sequencer.md R133). -/
theorem parityPasses_iff (ref : ParityRef) (mid : Vector Byte 4) (c : Nat) :
    parityPasses (parityBit ref mid) c = true ↔ c % 2 ≠ parityNumber ref mid := by
  have hp : parityNumber ref mid < 2 := by cases ref <;> exact Nat.mod_lt _ (by decide)
  rw [parityPasses, parityBit_eq_decide, bne_iff_ne, ne_eq, decide_eq_decide]
  omega

/-- The three ranges as intervals (41_channel_sequencer.md R134). -/
theorem rangeOf_cases (c : Nat) :
    (c ≤ 27 ∧ rangeOf c = 0) ∨ (28 ≤ c ∧ c ≤ 51 ∧ rangeOf c = 1) ∨ (52 ≤ c ∧ rangeOf c = 2) := by
  rw [rangeOf]
  split_ifs <;> simp <;> omega

/-- The entries of a table in [3, CH_MOD + 2] that lie in range A, B or C (41_channel_sequencer.md
R134). -/
theorem countIn_eq_usesOf {m : ChMod} {l : List Nat} (h : GoodTable m l) :
    countIn 3 27 l = usesOf 0 l ∧ countIn 28 51 l = usesOf 1 l ∧ countIn 52 76 l = usesOf 2 l := by
  have hm := chMod_value_bounds m
  refine ⟨?_, ?_, ?_⟩ <;>
    refine congrArg List.length (List.filter_congr fun c hc => ?_) <;>
    · have hc' := h.bounds c hc
      have hrange := rangeOf_cases c
      rw [Bool.eq_iff_iff, Bool.and_eq_true, decide_eq_true_eq, decide_eq_true_eq, beq_iff_eq]
      omega

/-- The range of `c` has its quota of entries, in the words of the fold (41_channel_sequencer.md
R134). -/
def RangeFull (s : List Nat) (c : Nat) : Prop :=
  (3 ≤ c ∧ c ≤ 27 ∧ countIn 3 27 s = 8) ∨ (28 ≤ c ∧ c ≤ 51 ∧ countIn 28 51 s = 7) ∨
    (52 ≤ c ∧ c ≤ 76 ∧ countIn 52 76 s = 8)

/-- A good table has room for a channel exactly if its range is not full: no range is over its
quota. -/
theorem usesOf_lt_quotaOf_iff {m : ChMod} {s : List Nat} {c : Nat} (h : GoodTable m s)
    (hlo : 3 ≤ c) (hhi : c < m.value + 3) :
    usesOf (rangeOf c) s < quotaOf (rangeOf c) ↔ ¬ RangeFull s c := by
  obtain ⟨hA, hB, hC⟩ := countIn_eq_usesOf h
  have hm := chMod_value_bounds m
  have hq := h.quota (rangeOf c)
  rw [RangeFull, hA, hB, hC]
  have hquota : quotaOf 0 = 8 ∧ quotaOf 1 = 7 ∧ quotaOf 2 = 8 := by decide
  obtain ⟨hc, hg⟩ | ⟨hc, hc', hg⟩ | ⟨hc, hg⟩ := rangeOf_cases c <;>
    rw [hg] at hq ⊢ <;> omega

/-- A candidate is accepted by a good table exactly if it passes the tests of the fold
(41_channel_sequencer.md R133-R135). -/
theorem accepts_iff {ref : ParityRef} {mid : Vector Byte 4} {m : ChMod} {s : List Nat} {c : Nat}
    (h : GoodTable m s) (hlo : 3 ≤ c) (hhi : c < m.value + 3) :
    accepts (parityBit ref mid) s c = true ↔
      c % 2 ≠ parityNumber ref mid ∧ c ∉ s ∧ ¬ RangeFull s c := by
  simp only [accepts, Bool.and_eq_true, parityPasses_iff, decide_eq_true_eq,
    usesOf_lt_quotaOf_iff h hlo hhi, and_assoc]
  simp

/-- The loop's table after n iterations, were it never to stop (41_channel_sequencer.md R135). -/
theorem partialTable_succ {p : Params} {mid : Vector Byte 4} {n : Nat}
    (h : GoodTable p.chMod (partialTable p mid n)) :
    partialTable p mid (n + 1) =
      if accepts (parityBit p.parityRef mid) (partialTable p mid n)
          (candidate p.chMod (lcgNext^[n + 1] (~~~(id32 mid))))
      then partialTable p mid n ++ [candidate p.chMod (lcgNext^[n + 1] (~~~(id32 mid)))]
      else partialTable p mid n := by
  obtain ⟨hlo, hhi⟩ := candidate_bounds p.chMod (lcgNext^[n + 1] (~~~(id32 mid)))
  rw [candidate_iterate] at hlo hhi ⊢
  have hiff := accepts_iff (ref := p.parityRef) (mid := mid) h hlo hhi
  split_ifs with ha
  · exact if_pos (hiff.mp ha)
  · exact if_neg (mt hiff.mpr ha)

theorem goodTable_partialTable (p : Params) (mid : Vector Byte 4) (n : Nat) :
    GoodTable p.chMod (partialTable p mid n) := by
  induction n with
  | zero => exact goodTable_nil _
  | succ n ih =>
    rw [partialTable_succ ih]
    split_ifs with ha
    · exact goodTable_append ih ha
    · exact ih

/-- The loop, entered after n iterations of the fold, goes on with the fold until it has 23
entries. -/
theorem dsmxLoop_eq_partialTable {p : Params} {mid : Vector Byte 4} {l : List Nat} {it : Nat}
    (fuel : Nat) : ∀ n,
      dsmxLoop p.chMod (parityBit p.parityRef mid) fuel (lcgNext^[n] (~~~(id32 mid)))
        (partialTable p mid n) n = some (l, it) →
      l = partialTable p mid it ∧ ∀ k, n ≤ k → k < it → (partialTable p mid k).length < 23 := by
  induction fuel with
  | zero =>
    intro n h
    rw [dsmxLoop] at h
    split_ifs at h
    cases h
    exact ⟨rfl, fun k hnk hkn => absurd hkn hnk.not_gt⟩
  | succ fuel ih =>
    intro n h
    by_cases hlen : (partialTable p mid n).length < 23
    · have hnext : dsmxLoop p.chMod (parityBit p.parityRef mid) fuel
          (lcgNext^[n + 1] (~~~(id32 mid))) (partialTable p mid (n + 1)) (n + 1)
            = some (l, it) := by
        rw [dsmxLoop, if_pos hlen, ← Function.iterate_succ_apply' lcgNext] at h
        rw [partialTable_succ (goodTable_partialTable p mid n)]
        split_ifs at h ⊢ <;> exact h
      obtain ⟨hl, hlt⟩ := ih (n + 1) hnext
      refine ⟨hl, fun k hnk hk => ?_⟩
      obtain rfl | hnk := hnk.eq_or_lt
      · exact hlen
      · exact hlt k hnk hk
    · rw [dsmxLoop, if_neg hlen] at h
      cases h
      exact ⟨rfl, fun k hnk hkn => absurd hkn hnk.not_gt⟩

/-- Settles O34: the loop starts at the fold's start and follows it. -/
theorem dsmxTableIsTheFold : Obligations.DsmxTableIsTheFold := by
  unfold Obligations.DsmxTableIsTheFold
  intro p mid l it h
  obtain ⟨hlen, -⟩ := dsmxTable_bytes h
  rw [dsmxTable] at h
  obtain ⟨hl, hlt⟩ := dsmxLoop_eq_partialTable (2 ^ 32) 0 h
  exact ⟨hl, hlen, fun n hn => hlt n n.zero_le hn⟩

/-! ### The properties of a valid table -/

/-- dsmx_table depends on the id, CH_MOD and PARITY_REF only (41_channel_sequencer.md R138). -/
theorem dsmxTable_congr {p q : Params} (mid : Vector Byte 4) (hm : p.chMod = q.chMod)
    (hr : p.parityRef = q.parityRef) : dsmxTable p mid = dsmxTable q mid := by
  rw [dsmxTable, dsmxTable, hm, hr]

theorem goodTable_of_dsmxTable {p : Params} {mid : Vector Byte 4} {l : List Nat} {it : Nat}
    (h : dsmxTable p mid = some (l, it)) : GoodTable p.chMod l ∧ l.length = 23 := by
  obtain ⟨l', it', h', hgood, hlen, -⟩ := dsmxTable_spec p mid
  obtain ⟨rfl, -⟩ := Prod.mk.inj (Option.some.inj (h.symm.trans h'))
  exact ⟨hgood, hlen⟩

/-- The two kinds of valid table: a pair GENTBL accepts, or dsmx_table(MID) (10_state.md R32). -/
theorem TableInv.cases {s : State} (h : TableInv s) (hv : s.tvalid = true) :
    (s.tblLen = 2 ∧ pairRefused s.cht[0] s.cht[1] = false) ∨
    (s.tblLen = 23 ∧ ∃ it, dsmxTable s.params s.mid = some (s.cht.toList.map BitVec.toNat, it)) := by
  have h := h hv
  cases hp : s.proto <;> rw [hp] at h
  · exact .inl h
  · exact .inr h

/-- A valid table of 23 entries is dsmx_table(MID). -/
theorem TableInv.dsmxTable_eq {s : State} (h : TableInv s) (hv : s.tvalid = true)
    (hlen : s.tblLen = 23) :
    ∃ it, dsmxTable s.params s.mid = some (s.cht.toList.map BitVec.toNat, it) := by
  obtain ⟨h2, -⟩ | ⟨-, h⟩ := h.cases hv
  · exact absurd (hlen.symm.trans h2) (by decide)
  · exact h

/-- CHT is known from the numbers of its entries. -/
theorem eq_of_map_toNat_eq {n : Nat} {v w : Vector Byte n}
    (h : v.toList.map BitVec.toNat = w.toList.map BitVec.toNat) : v = w :=
  Vector.toList_inj.mp (List.map_injective_iff.mpr (fun _ _ => BitVec.eq_of_toNat_eq) h)

/-- Settles O20: a pair is one GENTBL accepts, and dsmx_table is a good table of 23 entries that only
the id, CH_MOD and PARITY_REF decide. -/
theorem validTableProperties : Obligations.ValidTableProperties := by
  unfold Obligations.ValidTableProperties
  refine ⟨fun s hs hv => ?_, fun s t hs ht hvs hvt hls hlt hmid hmod href => ?_⟩
  · obtain ⟨hlen, hpair⟩ | ⟨hlen, it, htable⟩ := hs.cases hv
    · obtain ⟨ha, ha', hb, hb', hne⟩ := pairRefused_eq_false_iff.mp hpair
      exact ⟨.inl hlen, by simp [hlen], fun _ => ⟨hne, ha, ha', hb, hb'⟩⟩
    · obtain ⟨hgood, h23⟩ := goodTable_of_dsmxTable htable
      obtain ⟨hA, hB, hC⟩ := countIn_eq_usesOf hgood
      have hm := chMod_value_bounds s.params.chMod
      refine ⟨.inr hlen, fun _ => ⟨hgood.nodup, fun b hb => ?_, ?_⟩, by simp [hlen]⟩
      · have hbounds := hgood.bounds b.toNat (List.mem_map_of_mem hb)
        omega
      · rw [hA, hB, hC]
        exact uses_of_goodTable hgood h23
  · obtain ⟨it, hs⟩ := hs.dsmxTable_eq hvs hls
    obtain ⟨it', ht⟩ := ht.dsmxTable_eq hvt hlt
    rw [hmid, dsmxTable_congr t.mid hmod href, ht] at hs
    obtain ⟨hcht, -⟩ := Prod.mk.inj (Option.some.inj hs)
    exact (eq_of_map_toNat_eq hcht).symm

/-! ### HOP -/

/-- The complement of a half word as a number (00_scope.md R9). -/
theorem not_eq_ofNat_sub (v : BitVec 16) : ~~~v = BitVec.ofNat 16 (0xFFFF - v.toNat) := by
  apply BitVec.eq_of_toNat_eq
  rw [BitVec.toNat_not, BitVec.toNat_ofNat]
  omega

/-- A valid table is not empty, has at most 23 entries, and HOP_IDX lies in it (10_state.md R41 b). -/
theorem tblLen_bounds {s : State} (h : FieldInv s) (hv : s.tvalid = true) :
    s.hopIdx.toNat < s.tblLen.toNat ∧ s.tblLen.toNat ≤ 23 := by
  obtain ⟨-, hidx, -⟩ := h
  obtain ⟨hlen, hlt⟩ := hidx hv
  refine ⟨hlt, ?_⟩
  obtain hlen | hlen := hlen <;> rw [hlen] <;> decide

/-- HOP to the index `k` of a valid table (41_channel_sequencer.md R137). -/
theorem endsOk_hop {s : State} (hv : s.tvalid = true) {k : Nat}
    (hnext : nextHopIdx s.hopIdx s.tblLen = BitVec.ofNat 5 k) (hk : k < 23) :
    EndsOk .hop s
      { s with hopIdx := BitVec.ofNat 5 k, crcCur := BitVec.ofNat 16 (0xFFFF - s.crcCur.toNat) }
      (BitVec.ofNat 32 (65536 * (0xFFFF - s.crcCur.toNat) + 256 * k + s.cht[k].toNat)) := by
  have hk5 : (BitVec.ofNat 5 k).toNat = k := by
    rw [BitVec.toNat_ofNat]
    omega
  have hcht : chtEntry s (BitVec.ofNat 5 k) = s.cht[k] := by
    rw [chtEntry, hk5, Vector.getElem?_eq_getElem hk, Option.getD_some]
  have hdata : ~~~s.crcCur ++ 0#3 ++ BitVec.ofNat 5 k ++ s.cht[k] =
      BitVec.ofNat 32 (65536 * (0xFFFF - s.crcCur.toNat) + 256 * k + s.cht[k].toNat) := by
    apply BitVec.eq_of_toNat_eq
    simp only [toNat_append_eq, BitVec.toNat_not, BitVec.toNat_ofNat]
    omega
  refine endsOk_of_done ((if_neg (by simp [hv])).trans ?_) rfl
  rw [hnext, hcht, hdata, not_eq_ofNat_sub]

/-- Settles O35: TBL_LEN is not 0 and at most 23, so the remainder is an index of the table. -/
theorem hopAdvances : Obligations.HopAdvances := by
  unfold Obligations.HopAdvances
  refine fun s => ⟨fun hv => endsErr_of_fail (if_pos hv), fun hv hinv => ?_⟩
  obtain ⟨hidx, hlen⟩ := tblLen_bounds hinv hv
  have hne : s.tblLen ≠ 0 := fun h0 => by simp [h0] at hidx
  have hk : (s.hopIdx.toNat + 1) % s.tblLen.toNat < 23 :=
    (Nat.mod_lt _ (Nat.zero_lt_of_lt hidx)).trans_le hlen
  exact ⟨_, Vector.getElem?_eq_getElem hk, endsOk_hop hv (if_neg hne) hk⟩

/-! ### A sequence of hops -/

/-- The state with the elements a hop writes replaced: HOP_IDX, CRC_CUR and the responses. -/
def withHop (s : State) (i : BitVec 5) (v : BitVec 16) (rs : List Response) : State :=
  { s with hopIdx := i, crcCur := v, responses := rs }

/-- The field invariants ask of a hop only that the index stays in the table. -/
theorem fieldInv_withHop {s : State} {i : BitVec 5} (v : BitVec 16) (rs : List Response)
    (h : FieldInv s) (hi : i.toNat < s.tblLen.toNat) : FieldInv (withHop s i v rs) := by
  obtain ⟨hlen, hidx, hrx, -⟩ := h
  exact ⟨hlen, fun hv => ⟨(hidx hv).1, hi⟩, hrx, csrRead_err_bit_zero _⟩

/-- One HOP with a valid table (41_channel_sequencer.md R137). -/
theorem exec_hop_eq_withHop {s : State} (hv : s.tvalid = true) (hinv : FieldInv s) :
    ∃ i r, exec .hop s = .next (withHop s i (~~~s.crcCur) (s.responses ++ [r])) ∧
      i.toNat = (s.hopIdx.toNat + 1) % s.tblLen.toNat := by
  obtain ⟨-, hhop⟩ := hopAdvances s
  obtain ⟨c, -, hok⟩ := hhop hv hinv
  obtain ⟨hidx, -⟩ := tblLen_bounds hinv hv
  have hk := Nat.mod_lt (s.hopIdx.toNat + 1) (Nat.zero_lt_of_lt hidx)
  refine ⟨_, _, not_eq_ofNat_sub s.crcCur ▸ hok, ?_⟩
  rw [BitVec.toNat_ofNat]
  exact Nat.mod_eq_of_lt (hk.trans s.tblLen.isLt)

/-- The seed after n hops, an even number of which restores it (70_reset_and_hazards.md R264). -/
def seedAfter (n : Nat) (v : BitVec 16) : BitVec 16 := if n % 2 = 0 then v else ~~~v

theorem seedAfter_not (n : Nat) (v : BitVec 16) : seedAfter n (~~~v) = seedAfter (n + 1) v := by
  unfold seedAfter
  obtain h | h := n.mod_two_eq_zero_or_one <;> simp [Nat.add_mod, h]

/-- n hops with a valid table move the index by n and change HOP_IDX, CRC_CUR and the responses
only. -/
theorem execAll_hops (n : Nat) : ∀ s : State, s.tvalid = true → FieldInv s →
    ∃ i rs, execAll (List.replicate n .hop) s =
        .next (withHop s i (seedAfter n s.crcCur) (s.responses ++ rs)) ∧
      i.toNat = (s.hopIdx.toNat + n) % s.tblLen.toNat ∧ rs.length = n := by
  induction n with
  | zero =>
    intro s hv hinv
    obtain ⟨hidx, -⟩ := tblLen_bounds hinv hv
    exact ⟨s.hopIdx, [], by rw [List.append_nil]; rfl, (Nat.mod_eq_of_lt hidx).symm, rfl⟩
  | succ n ih =>
    intro s hv hinv
    obtain ⟨hidx, -⟩ := tblLen_bounds hinv hv
    obtain ⟨i, r, hexec, hi⟩ := exec_hop_eq_withHop hv hinv
    have hlt : i.toNat < s.tblLen.toNat := hi ▸ Nat.mod_lt _ (Nat.zero_lt_of_lt hidx)
    obtain ⟨j, rs, hexec', hj, hrs⟩ := ih (withHop s i (~~~s.crcCur) (s.responses ++ [r])) hv
      (fieldInv_withHop _ _ hinv hlt)
    refine ⟨j, r :: rs, ?_, ?_, by rw [List.length_cons, hrs]⟩
    · rw [List.replicate_succ, execAll, hexec, ← seedAfter_not, List.append_cons _ r rs]
      exact hexec'
    · calc j.toNat = (i.toNat + n) % s.tblLen.toNat := hj
        _ = (s.hopIdx.toNat + (n + 1)) % s.tblLen.toNat := by
          rw [hi, Nat.mod_add_mod, Nat.add_assoc, Nat.add_comm 1]

/-- Settles O36: the state after n hops is the old one but for HOP_IDX, CRC_CUR and the responses. -/
theorem hopsCycle : Obligations.HopsCycle := by
  unfold Obligations.HopsCycle
  intro n s hv hinv
  obtain ⟨i, rs, hexec, hi, hrs⟩ := execAll_hops n s hv hinv
  exact ⟨_, hexec, hi, rfl, List.length_append.trans (congrArg _ hrs), rfl⟩

end Sys2Proof.Machine
end

section
/-! SUPPORT. Every command and every step answers (60_exceptions.md, preamble, R236): an operand out of
range and a state without what the command asks for are refused, and nothing else stops a command, the
generator of GENTBL always filling its table (41_channel_sequencer.md R136). -/

namespace Sys2Proof.Machine

open Sys2Proof

/-- A state admits every command it does not refuse: each condition of `Admits`, where it fails, raises
an error. -/
theorem admits_of_not_endsErr {i : Instr} {s : State} (h : ∀ e, ¬ EndsErr i s e) : Admits i s where
  table hi := by
    obtain rfl | ⟨ch, rfl⟩ := hi
    · exact Bool.eq_true_of_not_eq_false fun hv => h .noTable ((hopAdvances s).1 hv)
    · exact Bool.eq_true_of_not_eq_false fun hv => h .noTable (endsErr_of_fail (if_pos hv))
  index v hi := by
    subst hi
    obtain ⟨-, -, -, -, hnoTable, hpastTable, -⟩ := csrwPerformsWrite s v
    have hv := Bool.eq_true_of_not_eq_false fun hv => h .noTable (hnoTable hv)
    exact ⟨hv, not_le.mp fun hle => h .badOperand (hpastTable hv hle)⟩
  pair a b hi hp := by
    subst hi
    obtain ⟨-, hrefused⟩ := gentblLoadsDsm2Pair s a b hp
    exact pairRefused_eq_false_iff.mp <| Bool.eq_false_of_not_eq_true fun hr =>
      h .badOperand (hrefused (pairRefused_eq_true_iff.mp hr))

/-- Every command, in every state, raises an error or ends with status OK (60_exceptions.md R230). -/
theorem endsErr_or_endsOk (i : Instr) (s : State) :
    (∃ e, EndsErr i s e) ∨ ∃ u d, EndsOk i s u d := by
  obtain ⟨hrefused, hanswers⟩ := operandRangesDecideStatus
  by_cases herr : ∃ e, EndsErr i s e
  · exact .inl herr
  · have hwf := Bool.eq_true_of_not_eq_false fun hwf => herr (hrefused i s hwf)
    obtain ⟨htable, hindex, hpair⟩ := admits_of_not_endsErr (not_exists.mp herr)
    exact .inr (hanswers i s hwf htable hindex hpair)

theorem exec_answers (i : Instr) (s : State) : ∃ t, exec i s = .next t := by
  obtain ⟨e, h⟩ | ⟨u, d, h⟩ := endsErr_or_endsOk i s
  · exact ⟨_, h⟩
  · exact ⟨_, h⟩

/-- Settles O11: a step waits, refuses a word that is no command, or runs a command, and every command
answers. -/
theorem everyCommandAnswers : Obligations.EveryCommandAnswers := by
  unfold Obligations.EveryCommandAnswers
  refine ⟨exec_answers, fun s => ?_⟩
  cases hp : s.port with
  | nil => exact ⟨s, by rw [step, fetch_nil hp]⟩
  | cons w rest =>
    cases hd : decode w with
    | error e => exact ⟨_, step_of_decode_error hp hd⟩
    | ok i =>
      rw [stepRunsDecodedCommand s w rest i hp hd]
      exact exec_answers i _

end Sys2Proof.Machine
end

section
/-! SUPPORT. The code selector (42_code_selector.md R150-R157): its columns, PN row and response words
as the rules' arithmetic, and what DERIVE, FLIP, LOOKUP and PNRD answer. -/

namespace Sys2Proof.Machine

open Sys2Proof

/-! ### Columns and PN row -/

theorem toNat_sopCol_add_dataCol (mid : Vector Byte 4) :
    (sopCol mid).toNat + (dataCol mid).toNat = 7 := by
  have hsop := (sopCol mid).isLt
  rw [dataCol, BitVec.toNat_ofNat]
  omega

/-- pn_row is the number of 42_code_selector.md R151. -/
theorem toNat_pnRow (proto : Proto) (ch : Nat) : (pnRow proto ch).toNat = rowNumber proto ch := by
  cases proto with
  | dsm2 | dsmx =>
    simp only [pnRow, rowNumber, BitVec.toNat_ofNat, reduceCtorEq, if_true, if_false]
    omega

theorem rowNumber_le (proto : Proto) (ch : Nat) : rowNumber proto ch ≤ 4 := by
  unfold rowNumber
  split <;> omega

/-- Settles O37: data_col is 7 - sop_col, and pn_row is a remainder by 5. -/
theorem selectorProperties : Obligations.SelectorProperties := by
  unfold Obligations.SelectorProperties
  refine ⟨fun mid => ?_, fun proto ch => (toNat_pnRow proto ch).trans_le (rowNumber_le proto ch)⟩
  have hsum := toNat_sopCol_add_dataCol mid
  omega

/-! ### DERIVE and FLIP -/

/-- A word is the one its number names (00_scope.md R9). -/
theorem eq_ofNat_of_toNat_eq {n : Nat} {v : BitVec n} {x : Nat} (h : v.toNat = x) :
    v = BitVec.ofNat n x := by
  rw [← h, BitVec.ofNat_toNat, BitVec.setWidth_eq]

/-- The DERIVE response {0, data_col, sop_col, crc_base} (42_code_selector.md R153). -/
theorem deriveData_eq_ofNat (s : State) :
    0#10 ++ dataCol s.mid ++ sopCol s.mid ++ crcBase s.mid =
      BitVec.ofNat 32 (524288 * (7 - sopNumber s) + 65536 * sopNumber s + seedNumber s) := by
  apply eq_ofNat_of_toNat_eq
  simp only [toNat_append_eq, toNat_dataCol, toNat_sopCol, toNat_crcBase, BitVec.toNat_ofNat]
  omega

/-- Settles O38: the seed and the response are the rules' numbers. -/
theorem deriveSetsSeed : Obligations.DeriveSetsSeed := by
  unfold Obligations.DeriveSetsSeed
  intro s
  rw [← deriveData_eq_ofNat, ← eq_ofNat_of_toNat_eq (toNat_crcBase s)]
  exact endsOk_of_done rfl rfl

/-- Settles O39: the complement of a half word is its distance from 0xFFFF, and complementing twice
gives the half word back. -/
theorem flipInvertsSeed : Obligations.FlipInvertsSeed := by
  unfold Obligations.FlipInvertsSeed
  intro s
  constructor
  · have hnum : (~~~s.crcCur).toNat = 0xFFFF - s.crcCur.toNat := BitVec.toNat_not
    rw [← not_eq_ofNat_sub, ← hnum, BitVec.ofNat_toNat]
    exact endsOk_of_done rfl rfl
  · exact ⟨_, rfl, congrArg (fun v => { s with crcCur := v }) BitVec.not_not⟩

/-! ### LOOKUP -/

/-- The LOOKUP response as a number (42_code_selector.md R155). -/
def lookupNumber (s : State) (c : Nat) : Nat :=
  536870912 * (7 - sopNumber s) + 67108864 * sopNumber s + 8388608 * rowNumber s.proto c
    + 65536 * c + s.crcCur.toNat

/-- A channel below 128 fits the 7-bit channel field. -/
theorem lookupData_eq_ofNat (s : State) {c : Byte} (hc : c.toNat < 128) :
    lookupData s c = BitVec.ofNat 32 (lookupNumber s c.toNat) := by
  apply eq_ofNat_of_toNat_eq
  simp only [lookupData, lookupNumber, toNat_append_eq, toNat_dataCol, toNat_sopCol, toNat_pnRow,
    extractLsb'_eq_ofNat, BitVec.toNat_ofNat]
  omega

theorem endsOk_lookup_operand (s : State) (ch : BitVec 7) :
    EndsOk (.lookup .operand ch) s s (BitVec.ofNat 32 (lookupNumber s ch.toNat)) := by
  have hch : (ch.setWidth 8).toNat = ch.toNat := BitVec.toNat_setWidth_of_le (by decide)
  have hdata := lookupData_eq_ofNat s (hch.trans_lt ch.isLt)
  rw [hch] at hdata
  exact hdata ▸ endsOk_of_done rfl rfl

theorem endsOk_lookup_table {s : State} (hv : s.tvalid = true) (ch : BitVec 7) {c : Byte}
    (hentry : s.cht[s.hopIdx.toNat]? = some c) (hc : c.toNat < 128) :
    EndsOk (.lookup .table ch) s s (BitVec.ofNat 32 (lookupNumber s c.toNat)) := by
  have hcht : chtEntry s s.hopIdx = c := by rw [chtEntry, hentry, Option.getD_some]
  rw [← lookupData_eq_ofNat s hc, ← hcht]
  exact endsOk_of_done (if_neg (by simp [hv])) rfl

/-- Every entry of a valid table is a channel of [3,76] (41_channel_sequencer.md R138). -/
theorem TableInv.entry_bounds {s : State} (h : TableInv s) (hv : s.tvalid = true) {k : Nat}
    (hk : k < s.tblLen.toNat) :
    ∃ c, s.cht[k]? = some c ∧ 3 ≤ c.toNat ∧ c.toNat ≤ 76 := by
  obtain ⟨hprops, -⟩ := validTableProperties
  obtain ⟨hlen, htable, hpair⟩ := hprops s h hv
  obtain hlen | hlen := hlen
  · obtain ⟨-, h0, h0', h1, h1'⟩ := hpair hlen
    have hk2 : k < 2 := by rwa [hlen] at hk
    interval_cases k
    · exact ⟨_, Vector.getElem?_eq_getElem _, h0, h0'⟩
    · exact ⟨_, Vector.getElem?_eq_getElem _, h1, h1'⟩
  · obtain ⟨-, hbounds, -⟩ := htable hlen
    have hk23 : k < 23 := by rwa [hlen] at hk
    obtain ⟨h3, -, h76⟩ := hbounds s.cht[k] (Vector.mem_toList_iff.mpr (Vector.getElem_mem hk23))
    exact ⟨_, Vector.getElem?_eq_getElem hk23, h3, h76⟩

/-- Settles O40: an operand channel fits its field, and so does an entry of a valid table, where
HOP_IDX lies. -/
theorem lookupReturnsParameters : Obligations.LookupReturnsParameters := by
  unfold Obligations.LookupReturnsParameters
  refine fun s ch => ⟨endsOk_lookup_operand s ch, fun hv => endsErr_of_fail (if_pos hv),
    fun hv hfield htable => ?_⟩
  obtain ⟨hidx, -⟩ := tblLen_bounds hfield hv
  obtain ⟨c, hentry, h3, h76⟩ := htable.entry_bounds hv hidx
  exact ⟨c, hentry, h3, h76, endsOk_lookup_table hv ch hentry (by omega)⟩

/-! ### PNRD -/

/-- PNRD of a row of PN_ROM, with `k` within the code, reads the byte at the code's column
(42_code_selector.md R156). -/
theorem endsOk_pnrd {s : State} {row : BitVec 3} {code : CodeSelect} {k : BitVec 4} {col j : Nat}
    (hr : row.toNat < 5) (hk : code = .sop → k.toNat < 8) (hcol : (pnColumn s.mid code k).val = col)
    (hj : k.toNat % 8 = j) (hc : col < 9) (hj8 : j < 8) :
    EndsOk (.pnrd row code k) s s
      (BitVec.ofNat 32 s.params.pnRom[row.toNat][col][j].toNat) := by
  subst hcol hj
  rw [BitVec.ofNat_toNat]
  have hwithin : ¬ (code = .sop ∧ 7 < k.toNat) := fun ⟨hsop, h7⟩ =>
    h7.not_ge (Nat.le_of_lt_succ (hk hsop))
  exact endsOk_of_done ((dif_pos hr).trans (if_neg hwithin)) rfl

/-- Settles O41: the column of a code is the rules' number, and each check refuses what it tests. -/
theorem pnrdReadsCode : Obligations.PnrdReadsCode := by
  unfold Obligations.PnrdReadsCode
  intro s row k
  have hsop : sopNumber s < 8 := Nat.mod_lt _ (by decide)
  have hk16 := k.isLt
  refine ⟨fun hrow c => endsErr_of_fail (dif_neg (by omega)),
    fun hrow hk => endsErr_of_fail ((dif_pos (by omega)).trans (if_pos ⟨rfl, hk⟩)),
    fun hr hk hc => ?sop, fun hr hc => ?data, by omega, by omega⟩
  case sop =>
    exact endsOk_pnrd (code := .sop) hr (fun _ => hk) (toNat_sopCol s) (Nat.mod_eq_of_lt hk) hc hk
  case data =>
    have hcol : (pnColumn s.mid .data k).val = 7 - sopNumber s + k.toNat / 8 :=
      congrArg (· + k.toNat / 8) (toNat_dataCol s)
    exact endsOk_pnrd (code := .data) hr nofun hcol rfl hc (Nat.mod_lt _ (by decide))

end Sys2Proof.Machine
end

section
/-! SUPPORT. The packet codec (43_packet_codec.md R170-R179): the tests VBIND and CLASS make on the
packet in RXP as the rules' arithmetic, the packets BBIND and BCMD build, and what a receiver makes
of them. -/

namespace Sys2Proof.Machine

open Sys2Proof

/-! ### Checksums -/

theorem toList_eq_ofFn {n : Nat} (v : Vector Byte n) : v.toList = List.ofFn fun i : Fin n => v[i] :=
  List.ext_getElem (by simp) (by simp)

theorem byteSum_stage1 (p : Vector Byte 16) : byteSum p 0 8 =
    p[0].toNat + p[1].toNat + p[2].toNat + p[3].toNat + p[4].toNat + p[5].toNat + p[6].toNat
      + p[7].toNat := by
  simp [byteSum, toList_eq_ofFn p, add_assoc]

theorem byteSum_stage2 (p : Vector Byte 16) : byteSum p 8 6 =
    p[8].toNat + p[9].toNat + p[10].toNat + p[11].toNat + p[12].toNat + p[13].toNat := by
  simp [byteSum, toList_eq_ofFn p, add_assoc]

/-- The reduction mod 2^16 never changes a stage-1 sum (43_packet_codec.md R171). -/
theorem toNat_stage1 (p : Vector Byte 16) : (stage1 p).toNat = sum1 p := by
  rw [stage1, BitVec.toNat_ofNat, sum1, byteSum_stage1]
  omega

/-- The reduction mod 2^16 never changes a stage-2 sum (43_packet_codec.md R171). -/
theorem toNat_stage2 (p : Vector Byte 16) : (stage2 p).toNat = sum2 p := by
  rw [stage2, BitVec.toNat_ofNat, toNat_stage1, sum2, sum1, byteSum_stage1, byteSum_stage2]
  omega

/-- Settles O42: eight and then six bytes of at most 255 stay far below 2^16. -/
theorem checksumSums : Obligations.ChecksumSums := by
  unfold Obligations.ChecksumSums
  intro p
  rw [toNat_stage1, toNat_stage2, sum2, sum1, byteSum_stage1, byteSum_stage2]
  omega

/-! ### BBIND -/

/-- The first stage sums the complemented id twice. -/
theorem sum1_bindPacket (mid : Vector Byte 4) (nch proto : Byte) (t1 t2 : BitVec 16) :
    sum1 (bindPacket mid nch proto t1 t2) = 368 + 2 * ((255 - mid[0].toNat) + (255 - mid[1].toNat)
      + (255 - mid[2].toNat) + (255 - mid[3].toNat)) := by
  rw [sum1, byteSum_stage1]
  simp only [bindPacket, Vector.getElem_mk, List.getElem_toArray, List.getElem_cons_zero,
    List.getElem_cons_succ, BitVec.toNat_not]
  omega

/-- The second stage goes on over the first sum's two bytes, the marker, nch and proto. -/
theorem sum2_bindPacket (mid : Vector Byte 4) (nch proto : Byte) (t1 t2 : BitVec 16) :
    sum2 (bindPacket mid nch proto t1 t2) = sum1 (bindPacket mid nch proto t1 t2)
      + t1.toNat / 256 + t1.toNat % 256 + 1 + nch.toNat + proto.toNat := by
  have ht1 := t1.isLt
  rw [sum2, byteSum_stage2]
  simp only [bindPacket, Vector.getElem_mk, List.getElem_toArray, List.getElem_cons_zero,
    List.getElem_cons_succ, highByte_eq_ofNat, lowByte_eq_ofNat, BitVec.ofNat_eq_ofNat,
    BitVec.toNat_ofNat]
  omega

theorem endsOk_bbind (s : State) (nch proto : Byte) :
    EndsOk (.bbind nch proto) s
      { s with txp := bindPacket s.mid nch proto (bindSum1 s.mid) (bindSum2 s.mid nch proto) }
      (bindSum1 s.mid ++ bindSum2 s.mid nch proto) :=
  endsOk_of_done rfl rfl

/-- Settles O43: the two stage values of the packet are the rule's t1 and t2. -/
theorem bbindBuildsPacket : Obligations.BbindBuildsPacket := by
  unfold Obligations.BbindBuildsPacket
  intro s nch proto t1 t2 ht1 ht2
  have hsum1 : (bindSum1 s.mid).toNat = t1 := by
    rw [bindSum1, toNat_stage1, sum1_bindPacket, ht1]
  have hsum2 : (bindSum2 s.mid nch proto).toNat = t2 := by
    rw [bindSum2, toNat_stage2, sum2_bindPacket, sum1_bindPacket, hsum1, ht2, ← ht1]
  have hdata : bindSum1 s.mid ++ bindSum2 s.mid nch proto = BitVec.ofNat 32 (65536 * t1 + t2) := by
    refine eq_ofNat_of_toNat_eq ?_
    rw [toNat_append_eq, hsum1, hsum2]
    omega
  have hend := endsOk_bbind s nch proto
  rw [hdata] at hend
  simpa only [bindPacket, highByte_eq_ofNat, lowByte_eq_ofNat, hsum1, hsum2] using hend

/-! ### The tests on RXP -/

/-- Two bytes hold a half word big-endian (20_memory.md R64) when they stand for its number. -/
theorem bytes_eq_halfWord_iff {a b : Byte} {v : BitVec 16} :
    a = highByte v ∧ b = lowByte v ↔ 256 * a.toNat + b.toNat = v.toNat := by
  have hv := v.isLt
  have hb := b.isLt
  rw [highByte_eq_ofNat, lowByte_eq_ofNat, ← BitVec.toNat_inj, ← BitVec.toNat_inj,
    BitVec.toNat_ofNat, BitVec.toNat_ofNat]
  omega

theorem lenOk_iff (s : State) : lenOk s = true ↔ LenTest s := by
  rw [lenOk, beq_iff_eq, ← BitVec.toNat_inj]
  rfl

theorem dblOk_iff (s : State) : dblOk s = true ↔ DblTest s := by
  simp [dblOk, DblTest, toList_eq_ofFn, and_assoc]

theorem s1Ok_iff (s : State) : s1Ok s = true ↔ S1Test s := by
  rw [s1Ok, Bool.and_eq_true, beq_iff_eq, beq_iff_eq, bytes_eq_halfWord_iff, toNat_stage1]

theorem s2Ok_iff (s : State) : s2Ok s = true ↔ S2Test s := by
  rw [s2Ok, Bool.and_eq_true, beq_iff_eq, beq_iff_eq, bytes_eq_halfWord_iff, toNat_stage2]

theorem idOk_iff (s : State) : idOk s = true ↔ IdTest s := by
  simp [idOk, IdTest, toList_eq_ofFn, and_assoc]

theorem bindOk_iff (s : State) : bindOk s = true ↔ BindTest s := by
  simp only [bindOk, Bool.and_eq_true, lenOk_iff, dblOk_iff, s1Ok_iff, s2Ok_iff, and_assoc]

theorem vbindOk_iff (m : Bool) (s : State) :
    vbindOk m s = true ↔ BindTest s ∧ (m = true → IdTest s) := by
  rw [vbindOk, Bool.and_eq_true, bindOk_iff, ← idOk_iff]
  cases m <;> simp

/-! ### VBIND -/

/-- A reported flag is the bit of the test it stands for. -/
theorem toNat_ofBool_of_iff {b : Bool} {P : Prop} [Decidable P] (h : b = true ↔ P) :
    (BitVec.ofBool b).toNat = bit P :=
  (toNat_ofBool_eq_bit b).trans (if_congr h rfl rfl)

/-- The VBIND response as a number (43_packet_codec.md R174). -/
theorem vbindData_eq_ofNat {s : State} {c m : Bool} {ok cap : Prop} [Decidable ok] [Decidable cap]
    (hok : vbindOk m s = true ↔ ok) (hcap : (vbindOk m s && c) = true ↔ cap) :
    vbindData c m s = BitVec.ofNat 32 (bit ok + 2 * bit (LenTest s) + 4 * bit (DblTest s)
      + 8 * bit (S1Test s) + 16 * bit (S2Test s) + 32 * bit (IdTest s) + 64 * bit cap) := by
  apply eq_ofNat_of_toNat_eq
  simp only [vbindData, toNat_append_eq, toNat_ofBool_of_iff hok, toNat_ofBool_of_iff hcap,
    toNat_ofBool_of_iff (lenOk_iff s), toNat_ofBool_of_iff (dblOk_iff s),
    toNat_ofBool_of_iff (s1Ok_iff s), toNat_ofBool_of_iff (s2Ok_iff s),
    toNat_ofBool_of_iff (idOk_iff s), BitVec.toNat_ofNat]
  omega

theorem exec_vbind (c m : Bool) (s : State) : exec (.vbind c m) s =
    done (if (vbindOk m s && c) = true then captureBind s else s) (vbindData c m s) :=
  (apply_ite (done · (vbindData c m s)) _ _ _).symm

/-- Settles O44: every reported bit is its test, and the capture is made exactly when cap is. -/
theorem vbindReportsAndCaptures : Obligations.VbindReportsAndCaptures := by
  unfold Obligations.VbindReportsAndCaptures
  intro s c m ok cap _ _ hok hcap
  have hok' : vbindOk m s = true ↔ ok := (vbindOk_iff m s).trans hok.symm
  have hcap' : (vbindOk m s && c) = true ↔ cap := by rw [Bool.and_eq_true, hok', hcap]
  rw [← vbindData_eq_ofNat hok' hcap']
  refine endsOk_of_done ((exec_vbind c m s).trans ?_) (by split <;> rfl)
  exact congrArg (done · (vbindData c m s)) (if_congr hcap' rfl rfl)

/-! ### Receiving a bind packet -/

/-- The state in which packet `p` has been received in full (43_packet_codec.md R179). -/
def receive (p : Vector Byte 16) (s : State) : State := { s with rxp := p, rxLen := 16 }

/-- A packet passes dbl_ok, s1_ok and s2_ok, the tests of 43_packet_codec.md R173 on its bytes
alone. -/
structure Verifies (p : Vector Byte 16) : Prop where
  doubled : ∀ i (h : i < 4), p[i] = p[i + 4]
  stage1  : 256 * p[8].toNat + p[9].toNat = sum1 p
  stage2  : 256 * p[14].toNat + p[15].toNat = sum2 p

theorem dblTest_iff (s : State) : DblTest s ↔ ∀ i (h : i < 4), s.rxp[i] = s.rxp[i + 4] := by
  simp [DblTest, List.ext_getElem_iff, add_comm]

theorem bindTest_receive_iff (p : Vector Byte 16) (s : State) :
    BindTest (receive p s) ↔ Verifies p := by
  rw [BindTest, dblTest_iff]
  exact ⟨fun ⟨_, hdbl, hs1, hs2⟩ => ⟨hdbl, hs1, hs2⟩,
    fun ⟨hdbl, hs1, hs2⟩ => ⟨rfl, hdbl, hs1, hs2⟩⟩

/-- The packet BBIND writes (43_packet_codec.md R172). -/
def builtPacket (mid : Vector Byte 4) (nch proto : Byte) : Vector Byte 16 :=
  bindPacket mid nch proto (bindSum1 mid) (bindSum2 mid nch proto)

/-- The packet BBIND writes carries its own two sums. -/
theorem verifies_builtPacket (mid : Vector Byte 4) (nch proto : Byte) :
    Verifies (builtPacket mid nch proto) where
  doubled i h := by interval_cases i <;> rfl
  stage1 := by
    rw [← toNat_stage1]
    exact bytes_eq_halfWord_iff.mp ⟨rfl, rfl⟩
  stage2 := by
    rw [← toNat_stage2]
    exact bytes_eq_halfWord_iff.mp ⟨rfl, rfl⟩

theorem exec_bbind (s : State) (nch proto : Byte) : ∃ t, exec (.bbind nch proto) s = .next t ∧
    t.txp = builtPacket s.mid nch proto ∧ t.mid = s.mid :=
  ⟨_, endsOk_bbind s nch proto, rfl, rfl⟩

theorem idTest_iff (s : State) : IdTest s ↔ ∀ i (h : i < 4), s.rxp[i] = ~~~s.mid[i] := by
  simp [IdTest, List.ext_getElem_iff]

theorem idTest_of_builtPacket {s : State} {nch proto : Byte}
    (h : s.rxp = builtPacket s.mid nch proto) : IdTest s := by
  rw [idTest_iff, h]
  intro i hi
  interval_cases i <;> rfl

/-- A capture of a packet with the own id leaves MID as it is. -/
theorem captureBind_mid_of_idTest {s : State} (h : IdTest s) : (captureBind s).mid = s.mid := by
  rw [idTest_iff] at h
  refine Vector.ext fun i hi => ?_
  rw [← BitVec.not_inj, ← h i hi]
  interval_cases i <;> exact BitVec.not_not

/-- With every test passed VBIND reports all of them, and captures when it is told to. -/
theorem exec_vbind_of_tests {c m : Bool} {s : State} (hbind : BindTest s) (hid : IdTest s) :
    exec (.vbind c m) s = done (if c then captureBind s else s) (if c then 0x7F else 0x3F) := by
  have hok : vbindOk m s = true := (vbindOk_iff m s).mpr ⟨hbind, fun _ => hid⟩
  obtain ⟨hlen, hdbl, hs1, hs2⟩ := hbind
  rw [exec_vbind, vbindData, hok, (lenOk_iff s).mpr hlen, (dblOk_iff s).mpr hdbl,
    (s1Ok_iff s).mpr hs1, (s2Ok_iff s).mpr hs2, (idOk_iff s).mpr hid]
  cases c <;> rfl

/-- Settles O45: the packet BBIND built passes the tests on its bytes and carries the id itself. -/
theorem bindRoundTrip : Obligations.BindRoundTrip := by
  unfold Obligations.BindRoundTrip
  intro s nch proto c m
  obtain ⟨t, ht, htxp, hmid⟩ := exec_bbind s nch proto
  have hbind : BindTest (receive t.txp t) :=
    (bindTest_receive_iff _ _).mpr (htxp ▸ verifies_builtPacket s.mid nch proto)
  have hid : IdTest (receive t.txp t) := idTest_of_builtPacket (hmid ▸ htxp)
  refine ⟨t, ht, _, exec_vbind_of_tests hbind hid, ?_⟩
  cases c with
  | false => exact ⟨rfl, hmid, nofun⟩
  | true =>
    exact ⟨rfl, (captureBind_mid_of_idTest hid).trans hmid,
      fun _ => ⟨congrArg (·[11]) htxp, congrArg (·[12]) htxp⟩⟩

/-! ### Detection of a changed byte -/

/-- Two bytes are known from the number of their half word (20_memory.md R64). -/
theorem bytes_eq_of_number_eq {a b c d : Byte}
    (h : 256 * a.toNat + b.toNat = 256 * c.toNat + d.toNat) : a = c ∧ b = d := by
  have hb := b.isLt
  have hd := d.isLt
  rw [← BitVec.toNat_inj, ← BitVec.toNat_inj]
  omega

theorem byteSum_set_of_outside {p : Vector Byte 16} {k lo n : Nat} (hk : k < 16) (b : Byte)
    (h : k < lo ∨ lo + n ≤ k) : byteSum (p.set k b) lo n = byteSum p lo n := by
  rw [byteSum, Vector.toList_set, List.drop_set]
  split
  · rfl
  · rw [List.take_set, List.set_eq_of_length_le ((List.length_take_le _ _).trans (by omega)),
      byteSum]

/-- A sum of the second stage tells a byte among the others. -/
theorem eq_of_byteSum_set_eq {p : Vector Byte 16} {k : Nat} {b : Byte} (h8 : 8 ≤ k) (h14 : k < 14)
    (h : byteSum (p.set k b) 8 6 = byteSum p 8 6) : p[k] = b := by
  rw [byteSum_stage2, byteSum_stage2] at h
  apply BitVec.eq_of_toNat_eq
  interval_cases k <;> simp only [Vector.getElem_set, reduceIte, Nat.reduceEqDiff] at h <;> omega

/-- An id byte of a packet that verifies is known from its copy. -/
theorem eq_of_doubled_set {p : Vector Byte 16} {k : Nat} (hk : k < 8) {b : Byte} (hp : Verifies p)
    (hq : Verifies (p.set k b)) : p[k] = b := by
  by_cases hfirst : k < 4
  · have hcopy := hq.doubled k hfirst
    rw [Vector.getElem_set_self, Vector.getElem_set_ne _ _ (by omega)] at hcopy
    exact (hp.doubled k hfirst).trans hcopy.symm
  · obtain ⟨j, rfl⟩ : ∃ j, k = j + 4 := ⟨k - 4, by omega⟩
    have hcopy := hq.doubled j (by omega)
    rw [Vector.getElem_set_self, Vector.getElem_set_ne _ _ (by omega)] at hcopy
    exact (hp.doubled j (by omega)).symm.trans hcopy

/-- One byte of a packet that verifies is known from the other fifteen: an id byte from its copy, a
sum byte from the bytes summed, and a byte only the second stage covers from that sum. -/
theorem eq_of_verifies_set {p : Vector Byte 16} {k : Nat} (hk : k < 16) {b : Byte} (hp : Verifies p)
    (hq : Verifies (p.set k b)) : p[k] = b := by
  by_cases hid : k < 8
  · exact eq_of_doubled_set hid hp hq
  have hsum1 : sum1 (p.set k b) = sum1 p :=
    congrArg (368 + ·) (byteSum_set_of_outside hk b (by omega))
  obtain ⟨h8, h9⟩ := bytes_eq_of_number_eq (hq.stage1.trans (hsum1.trans hp.stage1.symm))
  suffices hbyte : (p.set k b)[k] = p[k] from hbyte.symm.trans (Vector.getElem_set_self hk)
  by_cases hstage1 : k < 10
  · obtain rfl | rfl : k = 8 ∨ k = 9 := by omega
    exacts [h8, h9]
  by_cases hcovered : k < 14
  · have h14 : (p.set k b)[14] = p[14] := Vector.getElem_set_ne _ _ (by omega)
    have h15 : (p.set k b)[15] = p[15] := Vector.getElem_set_ne _ _ (by omega)
    have hsum2 := hq.stage2
    rw [h14, h15, hp.stage2, sum2, sum2, hsum1, Nat.add_left_cancel_iff] at hsum2
    rw [Vector.getElem_set_self, eq_of_byteSum_set_eq (by omega) hcovered hsum2.symm]
  · have hsum2 : sum2 (p.set k b) = sum2 p :=
      congrArg₂ (· + ·) hsum1 (byteSum_set_of_outside hk b (by omega))
    obtain ⟨h14, h15⟩ := bytes_eq_of_number_eq (hq.stage2.trans (hsum2.trans hp.stage2.symm))
    obtain rfl | rfl : k = 14 ∨ k = 15 := by omega
    exacts [h14, h15]

/-- VBIND of a packet that does not verify answers ok = 0 and changes nothing. -/
theorem exec_vbind_of_not_bindTest {c m : Bool} {s : State} (h : ¬ BindTest s) :
    ∃ d, exec (.vbind c m) s = done s d ∧ d.getLsbD 0 = false := by
  have hok : vbindOk m s = false := by
    rw [← Bool.not_eq_true, vbindOk_iff]
    exact fun hbind => h hbind.1
  refine ⟨vbindData c m s, ?_, ?_⟩
  · rw [exec_vbind, hok]
    rfl
  · rw [vbindData, hok, BitVec.getLsbD_append]
    rfl

/-- Settles O46: a packet that verifies does not after one byte is changed. -/
theorem bindMutationIsDetected : Obligations.BindMutationIsDetected := by
  unfold Obligations.BindMutationIsDetected
  intro s nch proto c m k b
  obtain ⟨t, ht, htxp, hmid⟩ := exec_bbind s nch proto
  refine ⟨t, ht, fun hk => ?_⟩
  have hbuilt : Verifies t.txp := htxp ▸ verifies_builtPacket s.mid nch proto
  have hbind : ¬ BindTest (receive (t.txp.set k b) t) := fun hq =>
    hk (eq_of_verifies_set k.isLt hbuilt ((bindTest_receive_iff _ _).mp hq))
  obtain ⟨d, hexec, hd⟩ := exec_vbind_of_not_bindTest hbind
  exact ⟨_, d, hexec, rfl, hd, hmid⟩

/-! ### BCMD -/

/-- An id byte in a header is the number of 43_packet_codec.md R170. -/
theorem toNat_headerByte (proto : Proto) (b : Byte) :
    (headerByte proto b).toNat = headerNumber proto b := by
  cases proto with
  | dsm2 => exact BitVec.toNat_not
  | dsmx => rfl

theorem toNat_header0 (s : State) : (header0 s).toNat = headerNumber s.proto s.mid[2] :=
  toNat_headerByte _ _

theorem toNat_header1Base (s : State) : (header1Base s).toNat = headerNumber s.proto s.mid[3] :=
  toNat_headerByte _ _

/-- Header byte 1 of BCMD is the number of 43_packet_codec.md R176. -/
theorem toNat_commandHeader1 (loss : Bool) (s : State) : (commandHeader1 loss s).toNat =
    (headerNumber s.proto s.mid[3] + 1 + bit (loss = true)) % 256 := by
  rw [commandHeader1, BitVec.toNat_add, BitVec.toNat_add, toNat_header1Base, Nat.mod_add_mod]
  cases loss <;> rfl

/-- BCMD of at most 14 bytes writes the header, the bytes of STG and zeros. -/
theorem endsOk_bcmd (s : State) (loss : Bool) {n : BitVec 5} (h : n.toNat ≤ 14) :
    ∃ p : Vector Byte 16,
      p.toList = header0 s :: commandHeader1 loss s ::
        (s.stg.toList.take n.toNat ++ List.replicate (14 - n.toNat) 0) ∧
      EndsOk (.bcmd loss n) s { s with txp := p } (0#16 ++ commandHeader1 loss s ++ header0 s) := by
  refine ⟨_, ?_, endsOk_of_done (if_neg h.not_gt) rfl⟩
  refine List.ext_getElem (by simp; omega) fun i hi _ => ?_
  rw [Vector.getElem_toList, Vector.getElem_ofFn]
  match i with
  | 0 => rfl
  | 1 => rfl
  | j + 2 =>
    rw [Vector.length_toList] at hi
    have hj : j < 16 := by omega
    by_cases hjn : j < n.toNat <;> simp [hj, hjn, List.getElem_append]

/-- Settles O47: the header bytes are the rule's numbers. -/
theorem bcmdBuildsPacket : Obligations.BcmdBuildsPacket := by
  unfold Obligations.BcmdBuildsPacket
  intro s loss n h0 h1 hh0 hh1
  rw [← toNat_header0] at hh0
  rw [← toNat_commandHeader1] at hh1
  subst hh0 hh1
  refine ⟨fun hn => endsErr_of_fail (if_pos hn), fun hn => ?_⟩
  have hdata : 0#16 ++ commandHeader1 loss s ++ header0 s =
      BitVec.ofNat 32 (256 * (commandHeader1 loss s).toNat + (header0 s).toNat) := by
    apply eq_ofNat_of_toNat_eq
    simp only [toNat_append_eq, BitVec.toNat_ofNat]
    omega
  rw [BitVec.ofNat_toNat, BitVec.ofNat_toNat, BitVec.setWidth_eq, BitVec.setWidth_eq, ← hdata]
  exact endsOk_bcmd s loss hn

/-! ### CLASS -/

/-- The class and the loss bit, as numbers, in the order of 43_packet_codec.md R178. -/
def classNumbers (s : State) : Nat × Nat :=
  if ¬ LenTest s then (0, 0)
  else if BindTest s then (1, 0)
  else if Header0Test s ∧ offNumber s = 1 then (2, 0)
  else if Header0Test s ∧ offNumber s = 2 ∧ s.clsPlus2 = true then (2, 1)
  else if Header0Test s ∧ offNumber s = 0 then (3, 0)
  else (0, 0)

theorem header0Match_iff (s : State) : header0Match s = true ↔ Header0Test s := by
  rw [header0Match, beq_iff_eq, ← BitVec.toNat_inj, toNat_header0]

theorem toNat_headerOffset (s : State) : (headerOffset s).toNat = offNumber s := by
  have hb := toNat_header1Base s
  have hlt := (header1Base s).isLt
  rw [headerOffset, BitVec.toNat_sub, hb, offNumber]
  omega

theorem headerOffset_eq_iff (s : State) (k : Byte) :
    headerOffset s = k ↔ offNumber s = k.toNat := by
  rw [← BitVec.toNat_inj, toNat_headerOffset]

theorem classOf_eq_classNumbers (s : State) :
    ((classOf s).1.toNat, bit ((classOf s).2 = true)) = classNumbers s := by
  simp only [classOf, classNumbers, ← Bool.not_eq_true, Bool.and_eq_true, beq_iff_eq, lenOk_iff,
    bindOk_iff, header0Match_iff, headerOffset_eq_iff, BitVec.reduceToNat, and_assoc]
  split_ifs <;> rfl

/-- The CLASS response as a number (43_packet_codec.md R178). -/
theorem endsOk_classify (s : State) : EndsOk .classify s s (BitVec.ofNat 32 ((classNumbers s).1
    + 4 * (classNumbers s).2 + 8 * bit (LenTest s) + 16 * bit (Header0Test s)
    + 256 * offNumber s)) := by
  refine endsOk_of_done (congrArg (done s) (eq_ofNat_of_toNat_eq ?_)) rfl
  simp only [← classOf_eq_classNumbers, toNat_append_eq, toNat_ofBool_of_iff (header0Match_iff s),
    toNat_ofBool_of_iff (lenOk_iff s), toNat_ofBool_eq_bit, toNat_headerOffset, BitVec.toNat_ofNat]
  omega

/-- Settles O48: the model makes the tests in the rule's order, and each reported field is the
rule's number. -/
theorem classifyReportsClass : Obligations.ClassifyReportsClass := by
  unfold Obligations.ClassifyReportsClass
  intro s cls loss h
  obtain ⟨rfl, rfl⟩ : cls = (classNumbers s).1 ∧ loss = (classNumbers s).2 := Prod.mk.inj h
  exact endsOk_classify s

/-! ### Receiving a command packet -/

theorem exec_bcmd (s : State) (loss : Bool) {n : BitVec 5} (h : n.toNat ≤ 14) :
    ∃ t, exec (.bcmd loss n) s = .next t ∧ t.txp[0] = header0 t ∧ t.txp[1] = commandHeader1 loss t ∧
      t.clsPlus2 = s.clsPlus2 := by
  obtain ⟨p, hp, hend⟩ := endsOk_bcmd s loss h
  obtain ⟨h0, htail⟩ := List.cons.inj ((toList_eq_ofFn p).symm.trans hp)
  exact ⟨_, hend, h0, (List.cons.inj htail).1, rfl⟩

/-- Header byte 1 of a command stands 1 above the base, or 2 with the loss bit. -/
theorem offNumber_of_commandHeader1 {r : State} {loss : Bool}
    (h : r.rxp[1] = commandHeader1 loss r) :
    offNumber r = 1 + bit (loss = true) := by
  have hoff : headerOffset r = 1 + if loss then 1 else 0 := by
    rw [headerOffset, h, commandHeader1, add_assoc, add_sub_cancel_left]
  rw [← toNat_headerOffset, hoff]
  cases loss <;> rfl

/-- A full packet with a command's header is a DataPair with the command's loss bit, or a Bind if it
is bind-valid. -/
theorem classNumbers_of_header {r : State} {loss : Bool} (hlen : LenTest r)
    (h0 : r.rxp[0] = header0 r) (h1 : r.rxp[1] = commandHeader1 loss r)
    (hplus2 : loss = true → r.clsPlus2 = true) :
    classNumbers r = if BindTest r then (1, 0) else (2, bit (loss = true)) := by
  have hheader : Header0Test r := (header0Match_iff r).mp (beq_iff_eq.mpr h0)
  rw [classNumbers, if_neg (not_not.mpr hlen)]
  refine if_congr Iff.rfl rfl ?_
  cases loss with
  | false => exact if_pos ⟨hheader, offNumber_of_commandHeader1 h1⟩
  | true =>
    have hoff : offNumber r = 2 := offNumber_of_commandHeader1 h1
    rw [if_neg (by simp [hoff]), if_pos ⟨hheader, hoff, hplus2 rfl⟩]
    rfl

/-- Settles O49: BCMD writes the header CLASS looks for, at offset 1 or with a loss 2. -/
theorem commandRoundTrip : Obligations.CommandRoundTrip := by
  unfold Obligations.CommandRoundTrip
  intro s loss n hn hplus2
  obtain ⟨t, ht, ht0, ht1, htplus2⟩ := exec_bcmd s loss hn
  refine ⟨t, ht, fun r hr => ?_⟩
  replace hr : r = receive t.txp t := hr
  have hcls : classNumbers r = if BindTest r then (1, 0) else (2, bit (loss = true)) := by
    subst hr
    exact classNumbers_of_header rfl ht0 ht1 (htplus2 ▸ hplus2)
  refine ⟨_, endsOk_classify r, ?_⟩
  have hloss : bit (loss = true) ≤ 1 := by cases loss <;> decide
  rw [BitVec.toNat_ofNat, hcls]
  split <;> omega

end Sys2Proof.Machine
end

section
/-! SUPPORT. The stream shuttle (44_stream_shuttle.md R200-R206): what INS, EXT, RBQ and RBCLR answer,
what each leaves in the ring it acts on, and the rings as byte queues. -/

namespace Sys2Proof.Machine

open Sys2Proof

/-! ### Capacity and answered commands -/

theorem rbCap_pos {p : Params} (h : p.Legal) : 0 < p.rbCap := Nat.lt_of_lt_of_le Nat.two_pos h.1

@[simp] theorem rbHeld_respond (s : State) (d : Word) (r : Ring) :
    rbHeld (s.respond d) r = rbHeld s r := rbHeld_congr (respond_ring s d r) rfl

@[simp] theorem rbHeld_raise (s : State) (e : ErrCode) (r : Ring) :
    rbHeld (s.raise e) r = rbHeld s r := rbHeld_congr (raise_ring s e r) rfl

/-- Replacing one ring, and answering, changes no other state (00_scope.md R12). -/
theorem setRing_restored (s : State) (r : Ring) (b : RingBuf) :
    { s.setRing r b with h2r := s.h2r, r2h := s.r2h, responses := s.responses } = s := by
  cases r <;> rfl

/-! ### RBCLR -/

theorem exec_rbclr (r : Ring) (s : State) :
    exec (.rbclr r) s = done (s.setRing r { s.ring r with inIdx := 0, outIdx := 0 }) 0 := rfl

/-- A ring whose IN and OUT are equal holds no byte (20_memory.md R66). -/
theorem rbHeld_of_index_eq {s : State} {r : Ring} (h : (s.ring r).inIdx = (s.ring r).outIdx) :
    rbHeld s r = [] := by
  simp [rbHeld, rbUsed, h]

/-- RBCLR leaves its ring empty (44_stream_shuttle.md R204). -/
theorem rbHeld_rbclr {s t : State} {r : Ring} (h : exec (.rbclr r) s = .next t) :
    rbHeld t r = [] := by
  obtain rfl := done_inj h
  apply rbHeld_of_index_eq
  simp

/-- Settles O54: a ring with IN = OUT = 0 holds nothing. -/
theorem rbclrEmptiesRing : Obligations.RbclrEmptiesRing := by
  unfold Obligations.RbclrEmptiesRing
  exact fun s => ⟨endsOk_of_done (exec_rbclr .h2r s) rfl, endsOk_of_done (exec_rbclr .r2h s) rfl,
    fun _ _ => rbHeld_rbclr⟩

/-! ### RBQ -/

section
variable {z : Nat} {tail : List Byte} (h : tail.head? ≠ some 0)
include h

/-- The fill zeros are exactly the leading zeros of the held bytes (44_stream_shuttle.md R202). -/
theorem leadingZeros_replicate_append : leadingZeros (List.replicate z 0 ++ tail) = z := by
  have htail : tail.takeWhile (· == (0 : Byte)) = [] := by
    cases tail with
    | nil => rfl
    | cons b tail => simpa using h
  rw [leadingZeros, List.takeWhile_append_of_pos (by simp), htail]
  simp

theorem frameLength_replicate_append :
    frameLength (List.replicate z 0 ++ tail) = tail.headD 0 := by
  rw [frameLength, leadingZeros_replicate_append h, List.getElem?_append_right (by simp)]
  cases tail <;> simp

theorem frameAvailable_replicate_append_iff :
    frameAvailable (List.replicate z 0 ++ tail) = true ↔
      tail ≠ [] ∧ (tail.headD 0).toNat ≤ tail.length - 1 := by
  rw [frameAvailable, frameLength_replicate_append h, leadingZeros_replicate_append h]
  simp [List.length_pos_iff]

end

/-- The RBQ response as a number (44_stream_shuttle.md R203). -/
theorem rbqData_eq_ofNat {used : Nat} (hused : used < 4096) (len : Byte) (framed : Bool)
    {available : Bool} {P : Prop} [Decidable P] (hP : available = true ↔ P) :
    0#10 ++ BitVec.ofBool framed ++ BitVec.ofBool available ++ len ++ BitVec.ofNat 12 used =
      BitVec.ofNat 32 (used + 4096 * len.toNat + 1048576 * bit P
        + 2097152 * bit (framed = true)) := by
  apply eq_ofNat_of_toNat_eq
  simp only [toNat_append_eq, toNat_ofBool_eq_bit framed, toNat_ofBool_of_iff hP,
    BitVec.toNat_ofNat]
  omega

/-- Settles O53: the first byte of the tail is the length byte, and the tail beyond it is what follows
the length byte. -/
theorem rbqReportsFrame : Obligations.RbqReportsFrame := by
  unfold Obligations.RbqReportsFrame
  intro s r z tail hlegal hheld htail
  have hused : rbUsed s r = z + tail.length := by
    rw [← length_rbHeld, hheld, List.length_append, List.length_replicate]
  have hlt : z + tail.length < 4096 := hused ▸ (rbUsed_lt (rbCap_pos hlegal)).trans_le hlegal.2
  rw [← rbqData_eq_ofNat hlt _ _ (frameAvailable_replicate_append_iff (z := z) htail),
    ← frameLength_replicate_append (z := z) htail, ← hheld, ← hused]
  exact endsOk_of_done rfl rfl

/-! ### INS -/

theorem length_insertBytes (s : State) {src : InsSource} {n : Nat} (h : n ≤ insertLimit src) :
    (insertBytes s src n).length = n := by
  cases src with
  | stg | rxpPayload => simpa [insertBytes, insertLimit] using h

/-- The INS response as a number (44_stream_shuttle.md R200). -/
theorem insData_eq_ofNat {used : Nat} (h : used < 4096) (ok : Bool) :
    insData used ok = BitVec.ofNat 32 (65536 * used + bit (ok = true)) := by
  apply eq_ofNat_of_toNat_eq
  simp only [insData, toNat_append_eq, toNat_ofBool_eq_bit, BitVec.toNat_ofNat]
  omega

section
variable {s : State} {r : Ring} {src : InsSource} {n : BitVec 5}

theorem exec_ins_of_limit_lt (h : insertLimit src < n.toNat) :
    exec (.ins r src n) s = fail s .badOperand := if_pos h

theorem exec_ins_of_free_lt (hn : n.toNat ≤ insertLimit src) (hfree : rbFree s r < n.toNat) :
    exec (.ins r src n) s = done s (insData (rbUsed s r) false) :=
  (if_neg hn.not_gt).trans (if_neg hfree.not_ge)

theorem used_add_lt_of_le_rbFree (hc : 0 < s.params.rbCap) {k : Nat} (h : k ≤ rbFree s r) :
    rbUsed s r + k < s.params.rbCap := by
  have hlt := rbUsed_lt (s := s) (r := r) hc
  unfold rbFree at h
  omega

/-- INS within its limit and the free room pushes its bytes (44_stream_shuttle.md R200). -/
theorem exec_ins_of_le_free (hc : 0 < s.params.rbCap) (hn : n.toNat ≤ insertLimit src)
    (hfree : n.toNat ≤ rbFree s r) :
    exec (.ins r src n) s = done (rbPush s r (insertBytes s src n.toNat))
      (insData (rbUsed s r + n.toNat) true) := by
  have hlen := length_insertBytes s hn
  have hused := used_add_lt_of_le_rbFree hc hfree
  rw [← hlen, ← rbUsed_push (hlen.symm ▸ hused), hlen]
  exact (if_neg hn.not_gt).trans (if_pos hfree)

/-- What an INS leaves in its ring: all its bytes at the end, or what was there (R200, R206). -/
theorem rbHeld_ins {t : State} (hc : 0 < s.params.rbCap) (h : exec (.ins r src n) s = .next t) :
    rbHeld t r = if n.toNat ≤ insertLimit src ∧ n.toNat ≤ rbFree s r
      then rbHeld s r ++ insertBytes s src n.toNat else rbHeld s r := by
  by_cases hn : n.toNat ≤ insertLimit src
  · by_cases hfree : n.toNat ≤ rbFree s r
    · rw [exec_ins_of_le_free hc hn hfree] at h
      obtain rfl := done_inj h
      have hused := used_add_lt_of_le_rbFree hc hfree
      rw [if_pos ⟨hn, hfree⟩, rbHeld_respond, rbHeld_push (by rwa [length_insertBytes s hn])]
    · rw [exec_ins_of_free_lt hn (not_le.mp hfree)] at h
      obtain rfl := done_inj h
      rw [if_neg (fun hand => hfree hand.2), rbHeld_respond]
  · rw [exec_ins_of_limit_lt (not_le.mp hn)] at h
    obtain rfl := fail_inj h
    rw [if_neg (fun hand => hn hand.1), rbHeld_raise]

end

/-- A pushed byte is read back at its address from IN on (20_memory.md R69). -/
theorem read_rbPush_at {s : State} {r : Ring} {d : List Byte} (hd : d.length ≤ s.params.rbCap)
    {j : Nat} (hj : j < d.length) :
    some (Memory.read r ((rbPush s r d).ring r).store (((s.ring r).inIdx + j) % s.params.rbCap))
      = d[j]? := by
  rw [rbPush_ring, Memory.read, find_writeSeq_at d _ _ _ hd hj, List.getElem?_eq_getElem hj]
  rfl

/-- RbPush changes no other byte of the storage (20_memory.md R69). -/
theorem read_rbPush_ne {s : State} {r : Ring} {d : List Byte} {a : Nat}
    (ha : ∀ j < d.length, a ≠ ((s.ring r).inIdx + j) % s.params.rbCap) :
    Memory.read r ((rbPush s r d).ring r).store a = Memory.read r (s.ring r).store a := by
  rw [rbPush_ring, Memory.read, find_writeSeq_ne d _ _ _ ha]
  rfl

/-- Settles O51: a refused INS answers in the old state, and an accepted one pushes its bytes. -/
theorem insIsAllOrNothing : Obligations.InsIsAllOrNothing := by
  unfold Obligations.InsIsAllOrNothing
  intro s r src n hlegal
  have hc := rbCap_pos hlegal
  refine ⟨fun h => endsErr_of_fail (exec_ins_of_limit_lt ?_), fun hstg hrxp => ?_⟩
  · obtain ⟨rfl, h⟩ | ⟨rfl, h⟩ := h <;> exact h
  have hn : n.toNat ≤ insertLimit src := by
    cases src with
    | stg => exact hstg rfl
    | rxpPayload => exact hrxp rfl
  refine ⟨fun hfull => ?_, fun hfree => ?_⟩
  · have hused : rbUsed s r < 4096 := (rbUsed_lt hc).trans_le hlegal.2
    exact endsOk_of_done ((exec_ins_of_free_lt hn hfull).trans
      (congrArg (done s) (insData_eq_ofNat hused false))) rfl
  · have hused := used_add_lt_of_le_rbFree hc hfree
    have hlen := length_insertBytes s hn
    have hdata := insData_eq_ofNat (hused.trans_le hlegal.2) true
    refine ⟨_, exec_ins_of_le_free hc hn hfree, ?_, ?_, ?_, fun j hj => ?_, fun a ha => ?_,
      fun q hq => ?_, ?_⟩
    · rw [respond_responses, hdata, rbPush, setRing_responses]
      rfl
    · rw [respond_ring, rbPush_ring, hlen]
    · rw [respond_ring, rbPush_ring]
    · rw [respond_ring, read_rbPush_at (by omega) (by omega)]
      cases src <;> simp [insertBytes, hj]
    · rw [respond_ring, read_rbPush_ne (by rwa [hlen])]
    · rw [respond_ring, rbPush_ring_ne s _ hq]
    · exact setRing_restored s r ..

/-! ### EXT -/

/-- The state EXT leaves, before its response: the discarded zeros dropped, then up to `m` bytes
taken (44_stream_shuttle.md R201). -/
def extState (s : State) (r : Ring) (m : Nat) : State :=
  takeBytes r m (rbDrop s r (zerosDiscarded s r))

@[simp] theorem takeBytes_ring (r q : Ring) (m : Nat) (s : State) :
    (takeBytes r m s).ring q = (rbDrop s r (min m (rbUsed s r))).ring q := setStg_ring ..

/-- The bytes EXT takes stand in STG from index 0 on, and the rest of STG stays
(44_stream_shuttle.md R201). -/
theorem takeBytes_stg_toList {m : Nat} (hm : m ≤ 16) (r : Ring) (s : State) :
    (takeBytes r m s).stg.toList =
      (rbHeld s r).take m ++ s.stg.toList.drop (min m (rbUsed s r)) := by
  refine List.ext_getElem (by simp; omega) fun i hi _ => ?_
  rw [Vector.length_toList] at hi
  by_cases hlt : i < min m (rbUsed s r)
  · rw [List.getElem_append_left (by simpa using hlt), List.getElem_take, getElem_rbHeld]
    simp only [takeBytes, Vector.getElem_toList, Vector.getElem_ofFn, if_pos hlt]
  · rw [List.getElem_append_right (by simp; omega)]
    simp only [takeBytes, Vector.getElem_toList, Vector.getElem_ofFn, if_neg hlt,
      List.getElem_drop, List.length_take, length_rbHeld, Nat.add_sub_cancel' (not_lt.mp hlt)]
    rfl

theorem rbHeld_takeBytes {s : State} (hc : 0 < s.params.rbCap) (r : Ring) (m : Nat) :
    rbHeld (takeBytes r m s) r = (rbHeld s r).drop m := by
  rw [rbHeld_congr (takeBytes_ring r r m s) (by simp), rbHeld_drop hc (min_le_right ..),
    ← length_rbHeld, ← List.drop_eq_drop_min]

section
variable {s : State} {r : Ring}

theorem exec_ext_of_lt {m : BitVec 5} (h : 16 < m.toNat) :
    exec (.ext r m) s = fail s .badOperand := if_pos h

/-- EXT of at most 16 bytes answers z and k = min(m, held - z) (44_stream_shuttle.md R201). -/
theorem exec_ext_of_le (hc : 0 < s.params.rbCap) {m : BitVec 5} (h : m.toNat ≤ 16) :
    exec (.ext r m) s = done (extState s r m.toNat) (extData (zerosDiscarded s r)
      (min m.toNat (rbUsed s r - zerosDiscarded s r))) := by
  rw [← rbUsed_drop hc (zerosDiscarded_le s r)]
  exact if_neg h.not_gt

/-- The EXT response as a number (44_stream_shuttle.md R201). -/
theorem extData_eq_ofNat {z k : Nat} (hz : z < 4096) (hk : k ≤ 16) :
    extData z k = BitVec.ofNat 32 (65536 * z + k) := by
  apply eq_ofNat_of_toNat_eq
  simp only [extData, toNat_append_eq, BitVec.toNat_ofNat]
  omega

@[simp] theorem extState_responses (m : Nat) : (extState s r m).responses = s.responses := by
  simp [extState, rbDrop]

/-- EXT moves OUT past the zeros it discards and the bytes it takes. -/
theorem extState_ring (hc : 0 < s.params.rbCap) (m : Nat) :
    (extState s r m).ring r = { s.ring r with
      outIdx := ((s.ring r).outIdx + zerosDiscarded s r
        + min m (rbUsed s r - zerosDiscarded s r)) % s.params.rbCap } := by
  simp [extState, rbDrop_ring, rbUsed_drop hc (zerosDiscarded_le s r)]

theorem extState_ring_ne (m : Nat) {q : Ring} (h : q ≠ r) :
    (extState s r m).ring q = s.ring q := by
  rw [extState, takeBytes_ring, rbDrop_ring_ne _ _ h, rbDrop_ring_ne _ _ h]

/-- EXT replaces its own ring and STG, nothing else. -/
theorem extState_eq_setRing (s : State) (r : Ring) (m : Nat) :
    ∃ b p, extState s r m = State.setRing { s with stg := p } r b := takeBytes_rbDrop_eq ..

/-- EXT leaves STG with its first bytes replaced by those it takes past the zeros. -/
theorem extState_stg_toList (hc : 0 < s.params.rbCap) {m : Nat} (hm : m ≤ 16) :
    (extState s r m).stg.toList = ((rbHeld s r).drop (zerosDiscarded s r)).take m
      ++ s.stg.toList.drop (min m (rbUsed s r - zerosDiscarded s r)) := by
  have hz := zerosDiscarded_le s r
  rw [extState, takeBytes_stg_toList hm, rbHeld_drop hc hz, rbUsed_drop hc hz, rbDrop, setRing_stg]

/-- EXT takes the discarded zeros and its bytes off the front of the held bytes. -/
theorem rbHeld_extState (hc : 0 < s.params.rbCap) (m : Nat) :
    rbHeld (extState s r m) r = ((rbHeld s r).drop (zerosDiscarded s r)).drop m := by
  rw [extState, rbHeld_takeBytes (by simpa using hc), rbHeld_drop hc (zerosDiscarded_le s r)]

/-- The held bytes beyond the zeros EXT discards (44_stream_shuttle.md R201). -/
theorem drop_zerosDiscarded : (rbHeld s r).drop (zerosDiscarded s r) =
    if s.framed r = true then (rbHeld s r).dropWhile (· == 0) else rbHeld s r := by
  unfold zerosDiscarded
  split
  · exact drop_leadingZeros _
  · rfl

theorem zerosDiscarded_of_unframed (h : s.framed r = false) : zerosDiscarded s r = 0 :=
  if_neg (by simp [h])

/-- What an EXT leaves in its ring (44_stream_shuttle.md R201). -/
theorem rbHeld_ext {t : State} {m : BitVec 5} (hc : 0 < s.params.rbCap)
    (h : exec (.ext r m) s = .next t) :
    rbHeld t r = if m.toNat ≤ 16
      then (if s.framed r = true then (rbHeld s r).dropWhile (· == 0) else rbHeld s r).drop m.toNat
      else rbHeld s r := by
  by_cases hm : m.toNat ≤ 16
  · rw [exec_ext_of_le hc hm] at h
    obtain rfl := done_inj h
    rw [if_pos hm, rbHeld_respond, rbHeld_extState hc, drop_zerosDiscarded]
  · rw [exec_ext_of_lt (not_le.mp hm)] at h
    obtain rfl := fail_inj h
    rw [if_neg hm, rbHeld_raise]

end

/-- Settles O52: z is the number of discarded zeros, and the state EXT leaves differs from the old one
in STG and OUT only. -/
theorem extConsumes : Obligations.ExtConsumes := by
  unfold Obligations.ExtConsumes
  intro s r m hlegal
  have hc := rbCap_pos hlegal
  refine ⟨fun h => endsErr_of_fail (exec_ext_of_lt h), fun hm z k hz hk => ?_⟩
  obtain rfl : z = zerosDiscarded s r := hz
  rw [length_rbHeld] at hk
  have hz : zerosDiscarded s r < 4096 :=
    ((zerosDiscarded_le s r).trans_lt (rbUsed_lt hc)).trans_le hlegal.2
  have hk16 : k ≤ 16 := by omega
  refine ⟨_, exec_ext_of_le hc hm, ?_, ?_, ?_, ?_, ?_, fun q hq => ?_, ?_⟩
  · rw [respond_responses, extState_responses, ← hk, extData_eq_ofNat hz hk16]
  · rw [respond_stg, extState_stg_toList hc hm, ← hk]
    congr 1
    rw [List.take_eq_take_iff, List.length_drop, length_rbHeld]
    omega
  · rw [respond_ring, extState_ring hc]
  · rw [respond_ring, extState_ring hc, hk]
  · rw [respond_ring, extState_ring hc]
  · rw [respond_ring, extState_ring_ne _ hq]
  · obtain ⟨b, p, heq⟩ := extState_eq_setRing s r m.toNat
    rw [heq]
    exact congrArg (fun u : State => { u with stg := s.stg })
      (setRing_restored { s with stg := p } r b)

/-! ### INS and then EXT -/

/-- An INS that fits an empty ring puts the first bytes of STG there (44_stream_shuttle.md R200). -/
theorem exec_ins_of_empty {s : State} {r : Ring} {n : BitVec 5} (hc : 0 < s.params.rbCap)
    (hempty : rbHeld s r = []) (hn : n.toNat ≤ 16) (hcap : n.toNat ≤ s.params.rbCap - 1) :
    ∃ u, exec (.ins r .stg n) s = .next u ∧ u.params = s.params ∧ u.framed r = s.framed r ∧
      u.stg = s.stg ∧ rbHeld u r = s.stg.toList.take n.toNat ∧
      u.responses = s.responses ++ [⟨.ok, insData n.toNat true⟩] := by
  have hused : rbUsed s r = 0 := by rw [← length_rbHeld, hempty, List.length_nil]
  have hfree : n.toNat ≤ rbFree s r := by rwa [rbFree, hused, Nat.sub_zero]
  have hins := exec_ins_of_le_free (src := .stg) hc hn hfree
  rw [hused, Nat.zero_add] at hins
  have hheld := rbHeld_ins hc hins
  rw [if_pos ⟨hn, hfree⟩, hempty, List.nil_append] at hheld
  exact ⟨_, hins, by simp, by simp [rbPush], by simp [rbPush], hheld, by simp [rbPush]⟩

/-- An unframed EXT of the bytes STG begins with rewrites them in place and empties the ring. -/
theorem extState_of_held_eq_stg {s : State} {r : Ring} {n : Nat} (hc : 0 < s.params.rbCap)
    (hframed : s.framed r = false) (hn : n ≤ 16) (hheld : rbHeld s r = s.stg.toList.take n) :
    (extState s r n).stg = s.stg ∧ rbHeld (extState s r n) r = [] := by
  have hused : rbUsed s r = n := by rw [← length_rbHeld, hheld]; simpa using hn
  have hz := zerosDiscarded_of_unframed hframed
  constructor
  · apply Vector.toList_inj.mp
    rw [extState_stg_toList hc hn, hz, hused, hheld, List.drop_zero, Nat.sub_zero, Nat.min_self,
      List.take_take, Nat.min_self, List.take_append_drop]
  · rw [rbHeld_extState hc, hz, hheld]
    simp

/-- Settles O57: the unframed EXT takes the inserted bytes, which are the bytes STG still holds. -/
theorem insThenExtReturnsBytes : Obligations.InsThenExtReturnsBytes := by
  unfold Obligations.InsThenExtReturnsBytes
  intro s r n hlegal hframed hempty hn hcap
  have hc := rbCap_pos hlegal
  obtain ⟨u, hins, hparams, hfrm, hstg, hheld, hresp⟩ := exec_ins_of_empty hc hempty hn hcap
  rw [← hparams] at hc
  rw [← hfrm] at hframed
  rw [← hstg] at hheld ⊢
  have hused : rbUsed u r = n.toNat := by rw [← length_rbHeld, hheld]; simpa using hn
  obtain ⟨hstg', hnil⟩ := extState_of_held_eq_stg hc hframed hn hheld
  have hext := exec_ext_of_le (r := r) hc hn
  rw [zerosDiscarded_of_unframed hframed, hused, Nat.sub_zero, Nat.min_self, done] at hext
  refine ⟨(extState u r n.toNat).respond (extData 0 n.toNat), ?_, hstg',
    (rbHeld_respond ..).trans hnil, ?_⟩
  · simp only [execAll, hins, hext]
  · have hins32 := insData_eq_ofNat (used := n.toNat) (by omega) true
    have hext32 := extData_eq_ofNat (z := 0) (by omega) hn
    rw [Nat.mul_zero, Nat.zero_add] at hext32
    rw [respond_responses, extState_responses, hresp, hins32, hext32, List.append_assoc]
    rfl

/-! ### The rings as queues -/

/-- The commands that act on ring r (44_stream_shuttle.md R200, R201, R204). -/
def ActsOn (r : Ring) (i : Instr) : Prop :=
  (∃ src n, i = .ins r src n) ∨ (∃ m, i = .ext r m) ∨ i = .rbclr r

/-- A command that does not act on a ring leaves its bytes (44_stream_shuttle.md R206). -/
theorem rbHeld_of_not_actsOn {i : Instr} {s t : State} {r : Ring} (h : exec i s = .next t)
    (hi : ¬ ActsOn r i) : rbHeld t r = rbHeld s r := by
  obtain ⟨hparams, -, -, -, -, -, -, -, -, -, -, -, hring⟩ := onlyTheseCommandsWrite i s t h
  exact rbHeld_congr (Decidable.byContradiction fun hne => hi (hring r hne)) hparams

/-- Settles O55: an INS, EXT or RBCLR of the ring does what its rule says, and nothing else touches
the ring. -/
theorem ringIsQueue : Obligations.RingIsQueue := by
  unfold Obligations.RingIsQueue
  intro s t r i hlegal h
  have hc := rbCap_pos hlegal
  by_cases hi : ActsOn r i
  · obtain ⟨src, n, rfl⟩ | ⟨m, rfl⟩ | rfl := hi
    · exact (rbHeld_ins hc h).trans (if_congr (and_iff_right rfl).symm rfl rfl)
    · simpa using rbHeld_ext hc h
    · simpa using rbHeld_rbclr h
  · rw [rbHeld_of_not_actsOn h hi]
    cases i with
    | ins rb src n => exact (if_neg fun ⟨hrb, _⟩ => hi (.inl ⟨src, n, by rw [hrb]⟩)).symm
    | ext rb m => exact (if_neg fun ⟨hrb, _⟩ => hi (.inr (.inl ⟨m, by rw [hrb]⟩))).symm
    | rbclr rb => exact (if_neg fun hrb => hi (.inr (.inr (by rw [hrb])))).symm
    | _ => rfl

/-! ### What passes through a ring -/

/-- A command that does not act on a ring adds no byte to it and returns none from it. -/
theorem passed_of_not_actsOn {r : Ring} {i : Instr} (hi : ¬ ActsOn r i) (s t : State) :
    insertedBy r i s t = [] ∧ returnedBy r i s t = [] := by
  cases i with
  | ins rb src n => exact ⟨if_neg fun hrb => hi (.inl ⟨src, n, by rw [hrb]⟩), rfl⟩
  | ext rb m => exact ⟨rfl, if_neg fun hrb => hi (.inr (.inl ⟨m, by rw [hrb]⟩))⟩
  | _ => exact ⟨rfl, rfl⟩

/-- An INS appends what it adds: as many of its bytes as the ring grew by. -/
theorem rbHeld_append_insertedBy {s t : State} {r : Ring} {src : InsSource} {n : BitVec 5}
    (hc : 0 < s.params.rbCap) (h : exec (.ins r src n) s = .next t) :
    rbHeld s r ++ insertedBy r (.ins r src n) s t = rbHeld t r := by
  have hheld := rbHeld_ins hc h
  simp only [insertedBy, if_true, ← length_rbHeld]
  split_ifs at hheld <;> simp [hheld]

/-- An unframed EXT returns what it takes off the front: the first bytes of STG, as many as the ring
shrank by. -/
theorem returnedBy_append_rbHeld {s t : State} {r : Ring} {m : BitVec 5}
    (hc : 0 < s.params.rbCap) (hframed : s.framed r = false) (h : exec (.ext r m) s = .next t) :
    returnedBy r (.ext r m) s t ++ rbHeld t r = rbHeld s r := by
  simp only [returnedBy, if_true, ← length_rbHeld]
  by_cases hm : m.toNat ≤ 16
  · rw [exec_ext_of_le hc hm] at h
    obtain rfl := done_inj h
    have hz := zerosDiscarded_of_unframed hframed
    rw [rbHeld_respond, rbHeld_extState hc, respond_stg, extState_stg_toList hc hm, hz,
      List.drop_zero, List.take_left' (by simp; omega), List.take_append_drop]
  · rw [exec_ext_of_lt (not_le.mp hm)] at h
    obtain rfl := fail_inj h
    simp

/-- One command keeps the balance of an unframed ring: what it held and what is added is what is
returned and what it holds then. -/
theorem exec_keeps_balance {s t : State} {r : Ring} {i : Instr} (hc : 0 < s.params.rbCap)
    (hframed : s.framed r = false) (hclr : i ≠ .rbclr r) (h : exec i s = .next t) :
    rbHeld s r ++ insertedBy r i s t = returnedBy r i s t ++ rbHeld t r := by
  by_cases hi : ActsOn r i
  · obtain ⟨src, n, rfl⟩ | ⟨m, rfl⟩ | rfl := hi
    · exact rbHeld_append_insertedBy hc h
    · exact (List.append_nil _).trans (returnedBy_append_rbHeld hc hframed h).symm
    · exact absurd rfl hclr
  · obtain ⟨hinserted, hreturned⟩ := passed_of_not_actsOn hi s t
    rw [hinserted, hreturned, rbHeld_of_not_actsOn h hi, List.append_nil, List.nil_append]

/-- Only a write of CFG changes FRM_r (10_state.md R27). -/
theorem exec_keeps_framed {i : Instr} {s t : State} (h : exec i s = .next t)
    (hi : ∀ v, i ≠ .csrw 0x02 v) (r : Ring) : t.framed r = s.framed r := by
  obtain ⟨-, -, -, hcfg, -⟩ := onlyTheseCommandsWrite i s t h
  have hkept := mt hcfg fun ⟨v, hv⟩ => hi v hv
  push Not at hkept
  obtain ⟨-, -, hfrm0, hfrm1⟩ := hkept
  cases r
  · exact hfrm0
  · exact hfrm1

/-- Settles O56, by induction on the commands: each answers and keeps the balance. -/
theorem ringTraceIsFifo : Obligations.RingTraceIsFifo := by
  unfold Obligations.RingTraceIsFifo
  intro r is
  induction is with
  | nil => exact fun s _ _ _ => ⟨[], [], s, rfl, by simp⟩
  | cons i is ih =>
    intro s hlegal hframed his
    obtain ⟨⟨hclr, hcfg⟩, his⟩ := List.forall_mem_cons.mp his
    obtain ⟨u, hu⟩ := exec_answers i s
    have hparams : u.params = s.params := (onlyTheseCommandsWrite i s u hu).1
    have hbalance := exec_keeps_balance (rbCap_pos hlegal) hframed hclr hu
    obtain ⟨a, b, t, htrace, hab⟩ :=
      ih u (hparams ▸ hlegal) ((exec_keeps_framed hu hcfg r).trans hframed) his
    refine ⟨insertedBy r i s u ++ a, returnedBy r i s u ++ b, t, ?_, ?_⟩
    · simp only [ringTrace, hu, htrace, Option.map_some]
    · calc rbHeld s r ++ (insertedBy r i s u ++ a)
          = returnedBy r i s u ++ (rbHeld u r ++ a) := by
            rw [← List.append_assoc, hbalance, List.append_assoc]
        _ = returnedBy r i s u ++ b ++ rbHeld t r := by rw [hab, List.append_assoc]

end Sys2Proof.Machine
end

section
/-! SUPPORT. What 60_exceptions.md says of errors: a command that ends with one changes nothing but its
ERR bit (R232), and the bit stays until it is cleared (R233). -/

namespace Sys2Proof.Machine

open Sys2Proof

/-! ### Precise errors -/

/-- Settles O13: the response of a command that had an effect has status OK, so a step whose response
is an error has raised that error. -/
theorem errorsArePrecise : Obligations.ErrorsArePrecise := by
  unfold Obligations.ErrorsArePrecise
  intro s t w rest e d hp h hresp
  rcases step_cases hp h with ⟨e', rfl⟩ | ⟨i, u, d', -, rfl, hE⟩
  · obtain ⟨rfl, rfl⟩ : e' = e ∧ 0 = d := by simpa [afterError] using hresp
    exact ⟨rfl, rfl⟩
  · obtain ⟨-, hu, -, -⟩ := effect_frame hE
    simp [hu] at hresp

/-! ### Sticky error bits -/

/-- What a CSRW ERR leaves of ERR (10_state.md R33): the bits its value has 0 in. -/
theorem getLsbD_errWrite (x : BitVec 6) (v : BitVec 16) (n : Nat) :
    (x &&& ~~~(v.extractLsb' 1 6)).getLsbD n = (x.getLsbD n && !v.getLsbD (n + 1)) := by
  by_cases hn : n < 6
  · simp [hn, Nat.add_comm 1 n]
  · rw [BitVec.getLsbD_of_ge _ n (by omega), BitVec.getLsbD_of_ge x n (by omega), Bool.false_and]

/-- The effect of a command keeps a set ERR bit, but for a CSRW ERR with a 1 in that bit. -/
theorem effect_keeps_errBit {i : Instr} {s u : State} {n : Nat} (hE : Effect i s u)
    (hset : s.err.getLsbD n = true) :
    u.err.getLsbD n = true ∨ ∃ v, i = .csrw 0x09 v ∧ v.getLsbD (n + 1) = true := by
  by_cases hi : ∃ a v, i = .csrw a v
  · obtain ⟨a, v, rfl⟩ := hi
    rcases effect_csrw_cases hE with ⟨m, -, rfl⟩ | ⟨-, rfl⟩ | ⟨-, rfl⟩ | ⟨-, rfl⟩ | ⟨rfl, rfl⟩ |
      ⟨-, rfl⟩
    iterate 4 · exact .inl hset
    · cases hv : v.getLsbD (n + 1)
      · exact .inl (by rw [getLsbD_errWrite, hset, hv]; rfl)
      · exact .inr ⟨v, rfl, hv⟩
    · exact .inl hset
  · obtain ⟨-, -, -, herr⟩ := effect_frame hE
    push Not at hi
    exact .inl (herr hi ▸ hset)

/-- The error effect keeps every set ERR bit (60_exceptions.md R232). -/
theorem afterError_keeps_errBit {s : State} {n : Nat} (e : ErrCode) (hset : s.err.getLsbD n = true) :
    (afterError s e).err.getLsbD n = true := by
  simp [afterError, hset]

/-- A step keeps a set ERR bit, but for a CSRW ERR with a 1 in that bit (60_exceptions.md R233). -/
theorem step_keeps_errBit {s t : State} {n : Nat} (h : step s = .next t)
    (hset : s.err.getLsbD n = true) :
    t.err.getLsbD n = true ∨
      ∃ w rest v, s.port = w :: rest ∧ decode w = .ok (.csrw 0x09 v) ∧ v.getLsbD (n + 1) = true := by
  cases hp : s.port with
  | nil =>
    rw [step, fetch_nil hp] at h
    cases h
    exact .inl hset
  | cons w rest =>
    rcases step_cases hp h with ⟨e, rfl⟩ | ⟨i, u, d, hd, rfl, hE⟩
    · exact .inl (afterError_keeps_errBit e hset)
    · rcases effect_keeps_errBit hE hset with hkept | ⟨v, rfl, hv⟩
      · exact .inl hkept
      · exact .inr ⟨w, rest, v, rfl, hd, hv⟩

/-- A CSRW ERR clears the bits its value has 1 in (10_state.md R33). -/
theorem exec_csrw_err_clears {s t : State} {v : BitVec 16} {n : Nat}
    (h : exec (.csrw 0x09 v) s = .next t) (hv : v.getLsbD (n + 1) = true) :
    t.err.getLsbD n = false := by
  have hok : EndsOk (.csrw 0x09 v) s { s with err := s.err &&& ~~~(v.extractLsb' 1 6) } 0 :=
    endsOk_csrw .err rfl
  cases hok.symm.trans h
  rw [getLsbD_errWrite, hv, Bool.not_true, Bool.and_false]

/-- ERR[n] is one bit. -/
theorem errBit_eq_twoPow (e : ErrCode) : errBit e = BitVec.twoPow 6 (errNumber e - 1) := by
  cases e <;> rfl

/-- Setting an ERR bit that is set leaves ERR as it is. -/
theorem or_errBit_eq_self {x : BitVec 6} {e : ErrCode} (h : x &&& errBit e ≠ 0) :
    x ||| errBit e = x := by
  have hbit : x &&& errBit e = errBit e := by
    rw [errBit_eq_twoPow, BitVec.and_twoPow] at h ⊢
    exact if_pos (Decidable.byContradiction fun hx => h (if_neg hx))
  rw [← hbit]
  ext i
  simpa using fun hx _ => hx

/-- Settles O14: every step keeps a set bit or is a CSRW ERR that clears it, and raising an error
again adds no bit. -/
theorem errBitsAreSticky : Obligations.ErrBitsAreSticky := by
  unfold Obligations.ErrBitsAreSticky
  exact ⟨fun _ _ _ => step_keeps_errBit, fun _ _ _ _ => exec_csrw_err_clears, fun _ => rfl,
    fun _ _ => or_errBit_eq_self⟩

end Sys2Proof.Machine
end

section
/-! SUPPORT. When the channel table is valid (70_reset_and_hazards.md R263): a command drops it, leaves
it with the MID and PROTO it rests on, or is the GENTBL that loads it. -/

namespace Sys2Proof.Machine

open Sys2Proof

/-- A command loads a table for the current MID and PROTO, leaves no valid table, or keeps MID, PROTO
and TVALID (70_reset_and_hazards.md R263). -/
theorem effect_tvalid_cases {i : Instr} {s u : State} (h : Effect i s u) :
    ((∃ a b, i = .gentbl a b) ∧ u.mid = s.mid ∧ u.proto = s.proto) ∨
    u.tvalid = false ∨
    (u.mid = s.mid ∧ u.proto = s.proto ∧ u.tvalid = s.tvalid) := by
  rcases effect_table_cases h with hsame | ⟨a, v, rfl⟩ | rfl | ⟨a, b, rfl⟩ | rfl | ⟨c, m, rfl⟩
  · exact .inr (.inr ⟨hsame.mid, hsame.proto, hsame.tvalid⟩)
  · rcases effect_csrw_cases h with ⟨m, -, rfl⟩ | ⟨-, rfl⟩ | ⟨-, rfl⟩ | ⟨-, rfl⟩ | ⟨-, rfl⟩ | ⟨-, rfl⟩
    · exact .inr (.inl rfl)
    · by_cases hproto : protoOf v = s.proto
      · exact .inr (.inr ⟨rfl, hproto, if_pos hproto⟩)
      · exact .inr (.inl (if_neg hproto))
    all_goals exact .inr (.inr ⟨rfl, rfl, rfl⟩)
  · cases h
    exact .inr (.inr ⟨rfl, rfl, rfl⟩)
  · obtain ⟨-, -, rfl⟩ | ⟨-, _, _, -, rfl⟩ := h <;> exact .inl ⟨⟨a, b, rfl⟩, rfl, rfl⟩
  · obtain ⟨-, rfl⟩ := h
    exact .inr (.inr ⟨rfl, rfl, rfl⟩)
  · obtain ⟨-, rfl⟩ | rfl := h
    · exact .inr (.inl rfl)
    · exact .inr (.inr ⟨rfl, rfl, rfl⟩)

/-- The same of a command that answers: an error leaves MID, PROTO and TVALID as they are. -/
theorem exec_tvalid_cases {i : Instr} {s t : State} (h : exec i s = .next t) :
    ((∃ a b, i = .gentbl a b) ∧ t.mid = s.mid ∧ t.proto = s.proto) ∨
    t.tvalid = false ∨
    (t.mid = s.mid ∧ t.proto = s.proto ∧ t.tvalid = s.tvalid) := by
  rcases exec_cases h with ⟨e, rfl⟩ | ⟨u, d, rfl, hE⟩
  · exact .inr (.inr ⟨rfl, rfl, rfl⟩)
  · simpa using effect_tvalid_cases hE

/-- A CSRW of ID_HI or ID_LO is never refused and drops the table, the id changed or not
(10_state.md R25, R26). -/
theorem exec_csrw_id_tvalid {a : BitVec 8} {v : BitVec 16} {s t : State} (ha : a = 0x00 ∨ a = 0x01)
    (h : exec (.csrw a v) s = .next t) : t.tvalid = false := by
  obtain rfl | rfl := ha
  · cases (endsOk_csrw (s := s) (v := v) .idHi rfl).symm.trans h
    rfl
  · cases (endsOk_csrw (s := s) (v := v) .idLo rfl).symm.trans h
    rfl

/-- Settles O22: a command that neither is GENTBL nor drops the table keeps MID, PROTO and TVALID, and
a CSRW of the id drops it. -/
theorem tableInvalidation : Obligations.TableInvalidation := by
  unfold Obligations.TableInvalidation
  intro i s t h
  refine ⟨fun hchanged => ?_, ?_, fun hs ht => ?_⟩
  · obtain ⟨-, hmid, hproto⟩ | hv | ⟨hmid, hproto, -⟩ := exec_tvalid_cases h
    · exact absurd hchanged (by simp [hmid, hproto])
    · exact hv
    · exact absurd hchanged (by simp [hmid, hproto])
  · rintro v (rfl | rfl)
    · exact exec_csrw_id_tvalid (.inl rfl) h
    · exact exec_csrw_id_tvalid (.inr rfl) h
  · obtain ⟨hgentbl, -, -⟩ | hv | ⟨-, -, hkept⟩ := exec_tvalid_cases h
    · exact hgentbl
    · exact absurd ht (by simp [hv])
    · exact absurd ht (by simp [hkept, hs])

end Sys2Proof.Machine
end

section
/-! SUPPORT. The invariants of the whole block (10_state.md R41): every step keeps the rings sound
(20_memory.md R63, R66-R70), and reset and what happens at the port keep all of them. -/

namespace Sys2Proof.Machine

open Sys2Proof

/-! ### One sound ring -/

/-- Whether a ring is sound depends on that ring and the parameters only. -/
theorem ringInv_congr {s t : State} {r : Ring} (hr : t.ring r = s.ring r)
    (hp : t.params = s.params) (hs : RingInv s r) : RingInv t r := by
  simpa only [RingInv, rbUsed_congr hr hp, hr, hp] using hs

/-- RbPush keeps a ring sound when its bytes fit: what was held stays written, and the new bytes are
written from IN on (20_memory.md R69). -/
theorem ringInv_rbPush {s : State} {r : Ring} {d : List Byte} (hs : RingInv s r)
    (hfit : rbUsed s r + d.length < s.params.rbCap) : RingInv (rbPush s r d) r := by
  obtain ⟨hin, hout, hwf, hbelow, hheld⟩ := hs
  have hc : 0 < s.params.rbCap := Nat.zero_lt_of_lt hin
  simp only [RingInv, rbPush_ring, rbPush_params, rbUsed_push hfit]
  refine ⟨Nat.mod_lt _ hc, hout, wf_writeSeq _ _ _ _ hwf, below_writeSeq hc _ _ _ hbelow,
    fun i hi => ?_⟩
  by_cases hold : i < rbUsed s r
  · exact isSome_find_writeSeq _ _ _ _ (hheld i hold)
  · obtain ⟨j, rfl⟩ := Nat.exists_eq_add_of_le (not_lt.mp hold)
    rw [← Nat.add_assoc, out_add_used_add hc, find_writeSeq_at d _ _ _ (by omega) (by omega)]
    rfl

/-- RbDrop of held bytes keeps a ring sound: what is held then was held (20_memory.md R70). -/
theorem ringInv_rbDrop {s : State} {r : Ring} {n : Nat} (hs : RingInv s r) (hn : n ≤ rbUsed s r) :
    RingInv (rbDrop s r n) r := by
  obtain ⟨hin, hout, hwf, hbelow, hheld⟩ := hs
  have hc : 0 < s.params.rbCap := Nat.zero_lt_of_lt hin
  simp only [RingInv, rbDrop_ring, rbDrop_params, rbUsed_drop hc hn]
  refine ⟨hin, Nat.mod_lt _ hc, hwf, hbelow, fun i hi => ?_⟩
  rw [Nat.mod_add_mod, Nat.add_assoc]
  exact hheld (n + i) (by omega)

/-- A ring with IN = OUT = 0 and a storage in canonical form within the capacity is sound: it holds
no byte (10_state.md R43, 44_stream_shuttle.md R204). -/
theorem ringInv_of_index_zero {s : State} {r : Ring} {m : Memory} (hc : 0 < s.params.rbCap)
    (hr : s.ring r = { inIdx := 0, outIdx := 0, store := m }) (hwf : Memory.wf m = true)
    (hbelow : ∀ c ∈ m, c.1 < s.params.rbCap) : RingInv s r := by
  have hused : rbUsed s r = 0 := by simp [rbUsed, hr]
  simp only [RingInv, hused, hr]
  exact ⟨hc, hc, hwf, hbelow, nofun⟩

/-! ### What a command does to a ring -/

/-- The effect of a command leaves a ring, pushes bytes that fit, drops held bytes or sets both
indices to 0 (44_stream_shuttle.md R200, R201, R204). -/
theorem effect_ring_cases {i : Instr} {s u : State} (hc : 0 < s.params.rbCap) (h : Effect i s u)
    (r : Ring) :
    u.ring r = s.ring r ∨
    (∃ d, rbUsed s r + d.length < s.params.rbCap ∧ u.ring r = (rbPush s r d).ring r) ∨
    (∃ n ≤ rbUsed s r, u.ring r = (rbDrop s r n).ring r) ∨
    u.ring r = { s.ring r with inIdx := 0, outIdx := 0 } := by
  cases i with
  | ins rb src n =>
    obtain ⟨hlimit, hfree, rfl⟩ | rfl := h
    · by_cases hr : r = rb
      · subst hr
        refine .inr (.inl ⟨_, ?_, rfl⟩)
        rw [length_insertBytes s hlimit]
        exact used_add_lt_of_le_rbFree hc hfree
      · exact .inl (rbPush_ring_ne s _ hr)
    · exact .inl rfl
  | ext rb m =>
    obtain ⟨-, rfl⟩ := h
    by_cases hr : r = rb
    · subst hr
      have hz := zerosDiscarded_le s r
      refine .inr (.inr (.inl ⟨zerosDiscarded s r + min m.toNat (rbUsed s r - zerosDiscarded s r),
        by omega, ?_⟩))
      rw [rbDrop_ring, ← Nat.add_assoc]
      exact extState_ring hc m.toNat
    · exact .inl (extState_ring_ne m.toNat hr)
  | rbclr rb =>
    cases h
    by_cases hr : r = rb
    · subst hr
      exact .inr (.inr (.inr (setRing_ring ..)))
    · exact .inl (setRing_ring_ne s _ hr)
  | csrw a v =>
    obtain ⟨m, -, rfl⟩ | ⟨-, rfl⟩ | ⟨-, rfl⟩ | ⟨-, rfl⟩ | ⟨-, rfl⟩ | ⟨-, rfl⟩ :=
      effect_csrw_cases h <;> simp [cfgWrite, ring_eq_ite]
  | bufw win idx b =>
    obtain ⟨-, -, rfl⟩ := h
    cases win <;> simp [setWindowByte, ring_eq_ite]
  | gentbl a b =>
    obtain ⟨-, -, rfl⟩ | ⟨-, _, _, -, rfl⟩ := h <;> simp [ring_eq_ite]
  | hop =>
    obtain ⟨-, rfl⟩ := h
    simp [ring_eq_ite]
  | bbind | bcmd =>
    obtain ⟨p, rfl⟩ := h
    simp [ring_eq_ite]
  | vbind c m =>
    obtain ⟨-, rfl⟩ | rfl := h <;> simp [captureBind, ring_eq_ite]
  | nop | csrr | bufr | derive | flip | lookup | pnrd | classify | rbq =>
    cases h
    simp [ring_eq_ite]

/-- The effect of every command keeps a ring sound. -/
theorem effect_keeps_ringInv {i : Instr} {s u : State} {r : Ring} (hs : RingInv s r)
    (h : Effect i s u) : RingInv u r := by
  obtain ⟨-, -, hparams, -⟩ := effect_frame h
  have ⟨hin, _, hwf, hbelow, _⟩ := hs
  have hc : 0 < s.params.rbCap := Nat.zero_lt_of_lt hin
  obtain hkept | ⟨d, hfit, hpush⟩ | ⟨n, hn, hdrop⟩ | hclear := effect_ring_cases hc h r
  · exact ringInv_congr hkept hparams hs
  · exact ringInv_congr hpush (by simpa using hparams) (ringInv_rbPush hs hfit)
  · exact ringInv_congr hdrop (by simpa using hparams) (ringInv_rbDrop hs hn)
  · rw [← hparams] at hc hbelow
    exact ringInv_of_index_zero hc hclear hwf hbelow

/-- The effect of every command keeps both rings sound (10_state.md R41 c). -/
theorem effect_keeps_ringsInv (i : Instr) (s u : State) (hs : RingsInv s) (h : Effect i s u) :
    RingsInv u := by
  obtain ⟨hlegal, hh2r, hr2h⟩ := hs
  obtain ⟨-, -, hparams, -⟩ := effect_frame h
  exact ⟨hparams ▸ hlegal, effect_keeps_ringInv hh2r h, effect_keeps_ringInv hr2h h⟩

/-- Settles O16: the port, an error and a response leave the rings alone, every effect keeps them
sound, and a ring of a legal capacity is never full. -/
theorem stepKeepsRingsInv : Obligations.StepKeepsRingsInv := by
  unfold Obligations.StepKeepsRingsInv
  intro s t hs h
  have ht : RingsInv t := step_keeps (fun _ _ hs => hs) (fun _ _ hs => hs) (fun _ _ hs => hs)
    effect_keeps_ringsInv hs h
  have ⟨hlegal, _⟩ := ht
  exact ⟨ht, fun _ => Nat.le_sub_one_of_lt (rbUsed_lt (rbCap_pos hlegal))⟩

/-! ### Between commands -/

/-- Settles O9: there is no word to take. -/
theorem idleStepHoldsState : Obligations.IdleStepHoldsState := by
  unfold Obligations.IdleStepHoldsState
  intro s hp
  rw [step, fetch_nil hp]

/-! ### Reset and the port -/

/-- After reset both rings are empty (10_state.md R43). -/
theorem ringInv_resetWith {p : Params} (hp : p.Legal) (r : Ring) : RingInv (State.resetWith p) r :=
  ringInv_of_index_zero (rbCap_pos hp) (by cases r <;> rfl) (wf_reset p r)
    (by cases r <;> exact nofun)

/-- The values of 10_state.md R43 meet all invariants: the table is not valid and the rings are
empty. -/
theorem inv_resetWith {p : Params} (hp : p.Legal) : Inv (State.resetWith p) :=
  ⟨⟨.inl rfl, nofun, Nat.zero_le _, csrRead_err_bit_zero _⟩,
    ⟨hp, ringInv_resetWith hp .h2r, ringInv_resetWith hp .r2h⟩, nofun⟩

/-- Settles O18: the reference RB_CAP of 256 is legal. -/
theorem resetMeetsInv : Obligations.ResetMeetsInv := by
  unfold Obligations.ResetMeetsInv
  exact ⟨fun _ => inv_resetWith, inv_resetWith ⟨by decide, by decide⟩⟩

/-- The invariants do not depend on the commands not yet taken or the responses not yet collected. -/
theorem inv_of_queues {s : State} (hs : Inv s) (ws : List Word) (rs : List Response) :
    Inv { s with port := ws, responses := rs } := hs

/-- Settles O19: submitting and collecting touch the queues at the port only, and reset keeps them
beside the reset values. -/
theorem portEventsKeepInv : Obligations.PortEventsKeepInv := by
  unfold Obligations.PortEventsKeepInv
  intro e s hs
  cases e with
  | submit w => exact inv_of_queues hs (s.port ++ [w]) s.responses
  | collect => exact inv_of_queues hs s.port (s.responses.drop 1)
  | reset =>
    obtain ⟨-, ⟨hlegal, -, -⟩, -⟩ := hs
    exact inv_of_queues (inv_resetWith hlegal) s.port s.responses

end Sys2Proof.Machine
end
